-- ==== Sys2Proof/Word.lean ====
section
/-! DEFINITION. The widths of the block's words (00_scope R3, R11; 10_state R21; 20_memory R52; 30_encoding R70). -/

namespace Sys2Proof

/-- A binary64 value as its IEEE 754 bit pattern (R11): bit 63 sign, 62:52 biased exponent, 51:0 fraction. -/
abbrev F64 := BitVec 64

/-- A fixed-point coordinate of K = 56 bits (R3, R29). -/
abbrev Fixed := BitVec 56

/-- One 5-bit symbol (R5, R30). -/
abbrev Symbol := BitVec 5

/-- One character byte (R31). -/
abbrev CharByte := BitVec 8

/-- A command word (R70). -/
abbrev CmdWord := BitVec 16

/-- A host register index (R50). -/
abbrev RegIndex := BitVec 6

/-- One 64-bit word of the host port (R54). -/
abbrev PortWord := BitVec 64

/-- The code buffer: 18 character slots (R31). -/
abbrev CodeBuffer := Vector CharByte 18

end Sys2Proof
end

