-- ==== Sys2Proof/Syntax.lean ====
section
/-! DEFINITION. The commands (30_encoding R73, one constructor per row of spec/opcode_table.json), the register names
(10_state R21) and the host steps (30_encoding R78). -/

namespace Sys2Proof

/-- The thirteen commands. An operand is the unsigned integer N of R71: a position j or a length L. -/
inductive Instr where
  /-- Do nothing but complete (R180). -/
  | nop
  /-- Normalize the input coordinate (R103). -/
  | norm
  /-- Convert the fixed-point coordinate to degrees (R105). -/
  | denorm
  /-- Clear the fixed-point accumulators (R124). -/
  | clrq
  /-- Build the symbol of position j (R126). -/
  | ilv (j : Nat)
  /-- De-interleave the symbol of position j (R128). -/
  | dilv (j : Nat)
  /-- Symbol to character (R142). -/
  | map
  /-- Character to symbol (R144). -/
  | unmap
  /-- Half-extents in degrees for length L (R162). -/
  | half (l : Nat)
  /-- Lower corner to midpoint for length L (R164). -/
  | center (l : Nat)
  /-- Metric half-extents and error radius (R166). -/
  | meters
  /-- Encode the input coordinate as a code of length L (R182). -/
  | encode (l : Nat)
  /-- Decode the code in the buffer (R184). -/
  | decode
deriving DecidableEq, Repr

/-- The named registers of the map R21; every index outside them is reserved. -/
inductive Reg where
  | cmd | status | config
  | latIn | lonIn | qlat | qlon | sym | char | codeLen
  | ctrLat | ctrLon | hlatDeg | hlonDeg | mpdLat | mpdLon | hlatM | hlonM | errM
  /-- Slot j of the code buffer, index 0x20 + j. -/
  | code (j : Fin 18)
deriving DecidableEq, Repr

/-- What the port can accept: the host's two accesses (R52, R53, R78) and the reset event (R230). -/
inductive PortEvent where
  /-- HostRead(idx), the step `RD`. -/
  | read (idx : RegIndex)
  /-- HostWrite(idx, d), the step `WR`; at CMD it issues a command. -/
  | write (idx : RegIndex) (d : PortWord)
  /-- Reset is asserted. -/
  | reset
deriving DecidableEq, Repr

end Sys2Proof
end

