-- ==== Sys2Proof/WellFormed.lean ====
section
/-! DEFINITION. The one check on a command as syntax: its operand fits the 8-bit field N (30_encoding R71; R77 makes a
larger operand an assembly error). The limits 17 and 18 are no check of the syntax: such commands decode, and raise
CodeTooLong when they execute (R74). -/

namespace Sys2Proof

/-- An operand fits the field N: 0..255 (R71, R77). -/
def operandFits (n : Nat) : Bool := n ≤ 255

/-- The command has a command word (R70, R71, R77). -/
def Instr.wellFormed : Instr → Bool
  | .nop => true
  | .norm => true
  | .denorm => true
  | .clrq => true
  | .ilv j => operandFits j
  | .dilv j => operandFits j
  | .map => true
  | .unmap => true
  | .half l => operandFits l
  | .center l => operandFits l
  | .meters => true
  | .encode l => operandFits l
  | .decode => true

end Sys2Proof
end

