-- ==== Sys2Proof/Decode.lean ====
section
/-! DEFINITION. Decoding of command words (30_encoding R70 to R76), total on the 65536 words, and the encoder (R77). -/

namespace Sys2Proof

/-- Why a word spells no command (R74, R75); each raises IllegalCommand. -/
inductive DecodeReject where
  /-- RSV = cw[7:4] is not 0000 (R72). -/
  | reservedField
  /-- OP is 0xD, 0xE or 0xF (R73). -/
  | reservedOpcode
  /-- N is not 0 for a command that takes no operand (R71). -/
  | operandNotZero
deriving DecidableEq, Repr

/-- OP = cw[3:0] (R70). -/
def opField (cw : CmdWord) : BitVec 4 := cw.extractLsb' 0 4

/-- RSV = cw[7:4] (R70). -/
def rsvField (cw : CmdWord) : BitVec 4 := cw.extractLsb' 4 4

/-- N = cw[15:8] (R70). -/
def nField (cw : CmdWord) : BitVec 8 := cw.extractLsb' 8 8

/-- A command that takes no operand is spelled only with N = 0 (R71, R74). -/
def noOperand (n : BitVec 8) (i : Instr) : Except DecodeReject Instr :=
  if n = 0 then .ok i else .error .operandNotZero

/-- R74, with the opcodes of R73. -/
def decode (cw : CmdWord) : Except DecodeReject Instr :=
  let n := nField cw
  if rsvField cw ≠ 0 then .error .reservedField
  else match (opField cw).toNat with
    | 0x0 => noOperand n .nop
    | 0x1 => noOperand n .norm
    | 0x2 => noOperand n .denorm
    | 0x3 => noOperand n .clrq
    | 0x4 => .ok (.ilv n.toNat)
    | 0x5 => .ok (.dilv n.toNat)
    | 0x6 => noOperand n .map
    | 0x7 => noOperand n .unmap
    | 0x8 => .ok (.half n.toNat)
    | 0x9 => .ok (.center n.toNat)
    | 0xA => noOperand n .meters
    | 0xB => .ok (.encode n.toNat)
    | 0xC => noOperand n .decode
    | _ => .error .reservedOpcode

/-- The word with fields N, RSV = 0000, OP (R70): `(N << 8) | OP` (R77). -/
def cmdWord (n : Nat) (op : BitVec 4) : CmdWord := BitVec.ofNat 8 n ++ 0#4 ++ op

/-- The command word of a command (R73, R77). -/
def encode : Instr → CmdWord
  | .nop => cmdWord 0 0x0
  | .norm => cmdWord 0 0x1
  | .denorm => cmdWord 0 0x2
  | .clrq => cmdWord 0 0x3
  | .ilv j => cmdWord j 0x4
  | .dilv j => cmdWord j 0x5
  | .map => cmdWord 0 0x6
  | .unmap => cmdWord 0 0x7
  | .half l => cmdWord l 0x8
  | .center l => cmdWord l 0x9
  | .meters => cmdWord 0 0xA
  | .encode l => cmdWord l 0xB
  | .decode => cmdWord 0 0xC

/-- The command word behind an opcode-table word of nbits bits: bit i of the table's word is bit i of the command word
(the table numbers the one 16-bit word from its least significant bit). -/
def tableCmdWord (nbits w : Nat) : CmdWord := BitVec.ofNat 16 (w % 2 ^ nbits)

/-- What the decoder reads from an opcode-table word. -/
def decodeTableWord (nbits w : Nat) : Option Instr :=
  match decode (tableCmdWord nbits w) with
  | .ok i => some i
  | .error _ => none

end Sys2Proof
end

