-- ==== Sys2Proof/Config.lean ====
section
/-! DEFINITION. What is fixed for this hardware: its constants (00_scope R3 to R5) and its two OPEN parameters (R14).
The alphabet table, the other constant the spec names, is `Machine.romTable` (Machine/Alphabet.lean). -/

namespace Sys2Proof.Config

/-- K, the fixed-point bits of each axis (R3). -/
def k : Nat := 56

/-- LMAX, the greatest code length (R4; 90_conflicts C3). -/
def lmax : Nat := 18

/-- NSYM, the alphabet size (R5). -/
def nsym : Nat := 32

/-- The OPEN parameter behind COS64 (R14, 92_eei_decisions D15): nothing is known of it.
The cosine of the machine is `Machine.cos64`, which keeps of it only what the spec lets through.
FREE VALUE, log entry 4. -/
opaque cos64Free : F64 → F64

/-- The OPEN parameter behind HYPOT64 (R14, 92_eei_decisions D15): nothing is known of it.
The hypotenuse of the machine is `Machine.hypot64`. FREE VALUE, log entry 5. -/
opaque hypot64Free : F64 → F64 → F64

end Sys2Proof.Config
end

