-- ==== Sys2Proof/Machine/State.lean ====
section
/-! DEFINITION. The state of the block (10_state R20 to R35) as plain data, and its reset value (R35, 70_reset R230).
CONFIG (R27) and ROM (R33) never change and are constants: `configWord`, `romTable`. There is no memory (20_memory R50). -/

namespace Sys2Proof.Machine

/-- Why the machine would stop with a fault. It has no constructor: every error of the spec is reported in STATUS by a
next state (60_exceptions R200, R204), no behaviour is stuck (93_implementation_defined, part 1), and no access fails
(20_memory R52, R53). Nothing raises it, so there is nothing to call safe or unsafe. -/
inductive Fault where
deriving DecidableEq, Repr

/-- Why a step would be refused. -/
inductive Refusal where
  /-- Raised by an arm of `exec` whose command has no meaning yet; no arm is left so. Safe: the machine stops. -/
  | notModelled (mnemonic : String)
deriving DecidableEq, Repr

/-- The registers of the map R21, the code buffer R31, and the model's own two fields for the host's side of the port. -/
structure State where
  /-- CMD, the command word latched by the last write to CMD (R22); no host read shows it. -/
  cmd : CmdWord
  /-- STATUS (R23): EPOS 15:8, 7:5 zero, STICKY 4, ERR 3:0. -/
  status : BitVec 16
  /-- LAT_IN (R28). -/
  latIn : F64
  /-- LON_IN (R28). -/
  lonIn : F64
  /-- QLAT (R29). -/
  qlat : Fixed
  /-- QLON (R29). -/
  qlon : Fixed
  /-- SYM (R30). -/
  sym : Symbol
  /-- CHAR (R30). -/
  char : CharByte
  /-- CODE_LEN (R31). -/
  codeLen : BitVec 8
  /-- CTR_LAT (R32). -/
  ctrLat : F64
  /-- CTR_LON (R32). -/
  ctrLon : F64
  /-- HLAT_DEG (R32). -/
  hlatDeg : F64
  /-- HLON_DEG (R32). -/
  hlonDeg : F64
  /-- MPD_LAT (R32). -/
  mpdLat : F64
  /-- MPD_LON (R32). -/
  mpdLon : F64
  /-- HLAT_M (R32). -/
  hlatM : F64
  /-- HLON_M (R32). -/
  hlonM : F64
  /-- ERR_M (R32). -/
  errM : F64
  /-- CODE[0] to CODE[17] (R31). -/
  code : CodeBuffer
  /-- The model's own: the host's accesses the port has yet to take, in the order it accepts them (R57, R58, R238).
  DESIGN CHOICE, log entry 1. -/
  port : List PortEvent
  /-- The model's own: the values host reads have returned, oldest first (R238). DESIGN CHOICE, log entry 2. -/
  reads : List PortWord
deriving DecidableEq, Repr

/-- The block right after reset (R35, R230), with no access pending and none made. -/
def State.reset : State where
  cmd := 0
  status := 0
  latIn := 0
  lonIn := 0
  qlat := 0
  qlon := 0
  sym := 0
  char := 0
  codeLen := 0
  ctrLat := 0
  ctrLon := 0
  hlatDeg := 0
  hlonDeg := 0
  mpdLat := 0
  mpdLon := 0
  hlatM := 0
  hlonM := 0
  errM := 0
  code := Vector.replicate 18 0
  port := []
  reads := []

end Sys2Proof.Machine
end

