-- ==== Sys2Proof/Machine/Flags.lean ====
section
/-! DEFINITION. STATUS: its fields (10_state R23 to R26) and what a command writes to them. -/

namespace Sys2Proof.Machine

/-- The error outcomes of a command (R24, 60_exceptions R200). -/
inductive ErrCode where
  | invalidSymbol
  | codeTooLong
  | invalidCoordinate
  | illegalCommand
deriving DecidableEq, Repr

/-- The value of STATUS.ERR for an error (R24). -/
def errValue : ErrCode → BitVec 4
  | .invalidSymbol => 1
  | .codeTooLong => 2
  | .invalidCoordinate => 3
  | .illegalCommand => 4

/-- STATUS from its fields, EPOS 15:8, 7:5 zero, STICKY 4, ERR 3:0 (R23). -/
def statusWord (epos : BitVec 8) (sticky : Bool) (err : BitVec 4) : BitVec 16 :=
  epos ++ 0#3 ++ BitVec.ofBool sticky ++ err

/-- STATUS.ERR, bits 3:0. -/
def errOf (status : BitVec 16) : BitVec 4 := status.extractLsb' 0 4

/-- STATUS.STICKY, bit 4. -/
def stickyOf (status : BitVec 16) : Bool := status.getLsbD 4

/-- STATUS[7:5], reserved (R23). -/
def statusReserved (status : BitVec 16) : BitVec 3 := status.extractLsb' 5 3

/-- STATUS.EPOS, bits 15:8. -/
def eposOf (status : BitVec 16) : BitVec 8 := status.extractLsb' 8 8

/-- STATUS after a command that completes: ERR = 0, EPOS = 0, STICKY as it was (R24, R25, R26). -/
def statusCompleted (status : BitVec 16) : BitVec 16 := statusWord 0 (stickyOf status) 0

/-- STATUS after an error: ERR, EPOS, and STICKY = 1 (60_exceptions R204). -/
def statusRaised (e : ErrCode) (epos : BitVec 8) : BitVec 16 := statusWord epos true (errValue e)

end Sys2Proof.Machine
end

