-- ==== Sys2Proof/Machine/Ops.lean ====
section
/-! DEFINITION. The operations the commands share: ending a command, with or without an error, and the code buffer. -/

namespace Sys2Proof.Machine

/-- The end of a command that completes (10_state R24 to R26): every command's last line `STATUS.ERR <- 0; STATUS.EPOS <- 0`. -/
def complete (s : State) : State := { s with status := statusCompleted s.status }

/-- Error entry, `raise Err(code, epos)` (60_exceptions R204, 00_scope R12): STATUS and nothing else, so it is applied to the
state as it was before the command. No pc, mode or vector exists to save or set, and no return command is needed (R207):
the next access is taken from this state. -/
def raiseErr (e : ErrCode) (epos : BitVec 8) (s : State) : State := { s with status := statusRaised e epos }

/-- `CODE[j]` read (R12, R31). -/
def slot (c : CodeBuffer) (j : Nat) : CharByte := c.getD j 0

/-- `CODE[j] <- b` (R12, R31). -/
def setSlot (c : CodeBuffer) (j : Nat) (b : CharByte) : CodeBuffer := c.setIfInBounds j b

/-- `for j in 0..n : CODE[j] <- f j` (R12). -/
def fillSlots (f : Nat → CharByte) : Nat → CodeBuffer → CodeBuffer
  | 0, c => c
  | n + 1, c => setSlot (fillSlots f n c) n (f n)

/-- CONFIG's constant value (R27): K in 7:0, LMAX in 15:8, NSYM in 23:16, zero in 31:24. -/
def configWord : BitVec 32 :=
  0#8 ++ BitVec.ofNat 8 Config.nsym ++ BitVec.ofNat 8 Config.lmax ++ BitVec.ofNat 8 Config.k

end Sys2Proof.Machine
end

