-- ==== Sys2Proof/Machine/Operands.lean ====
section
/-! DEFINITION. What can stand as an operand: a command's N as a length or a position (30_encoding R71), and a register
behind a host index (10_state R21, 20_memory R50 to R54). -/

namespace Sys2Proof.Machine

/-! ## The operand N -/

/-- A length names a code: L ≤ LMAX = 18 (00_scope R4). -/
def lengthOk (l : Nat) : Bool := l ≤ Config.lmax

/-- A position of a code of length LMAX: j ≤ 17 (41_interleaver R125). -/
def positionOk (j : Nat) : Bool := j < Config.lmax

/-! ## The register map -/

/-- Host access classes (R21). An index with no register is RSV. -/
inductive Access where
  | rw | ro | wo
deriving DecidableEq, Repr

/-- The register at an index, none at a reserved one (R21, R51). -/
def regAt (idx : RegIndex) : Option Reg :=
  match idx.toNat with
  | 0x00 => some .cmd
  | 0x01 => some .status
  | 0x02 => some .config
  | 0x04 => some .latIn
  | 0x05 => some .lonIn
  | 0x06 => some .qlat
  | 0x07 => some .qlon
  | 0x08 => some .sym
  | 0x09 => some .char
  | 0x0A => some .codeLen
  | 0x10 => some .ctrLat
  | 0x11 => some .ctrLon
  | 0x12 => some .hlatDeg
  | 0x13 => some .hlonDeg
  | 0x14 => some .mpdLat
  | 0x15 => some .mpdLon
  | 0x16 => some .hlatM
  | 0x17 => some .hlonM
  | 0x18 => some .errM
  | n => if h : 0x20 ≤ n ∧ n < 0x32 then some (.code ⟨n - 0x20, by omega⟩) else none

/-- The index of a register (R21). -/
def indexOf : Reg → RegIndex
  | .cmd => 0x00
  | .status => 0x01
  | .config => 0x02
  | .latIn => 0x04
  | .lonIn => 0x05
  | .qlat => 0x06
  | .qlon => 0x07
  | .sym => 0x08
  | .char => 0x09
  | .codeLen => 0x0A
  | .ctrLat => 0x10
  | .ctrLon => 0x11
  | .hlatDeg => 0x12
  | .hlonDeg => 0x13
  | .mpdLat => 0x14
  | .mpdLon => 0x15
  | .hlatM => 0x16
  | .hlonM => 0x17
  | .errM => 0x18
  | .code j => BitVec.ofNat 6 (0x20 + j.val)

/-- The width of a register (R21). -/
def widthOf : Reg → Nat
  | .cmd => 16
  | .status => 16
  | .config => 32
  | .latIn => 64
  | .lonIn => 64
  | .qlat => 56
  | .qlon => 56
  | .sym => 5
  | .char => 8
  | .codeLen => 8
  | .ctrLat => 64
  | .ctrLon => 64
  | .hlatDeg => 64
  | .hlonDeg => 64
  | .mpdLat => 64
  | .mpdLon => 64
  | .hlatM => 64
  | .hlonM => 64
  | .errM => 64
  | .code _ => 8

/-- The access class of a register (R21). -/
def accessOf : Reg → Access
  | .cmd => .wo
  | .status => .ro
  | .config => .ro
  | .latIn => .rw
  | .lonIn => .rw
  | .qlat => .rw
  | .qlon => .rw
  | .sym => .rw
  | .char => .rw
  | .codeLen => .rw
  | .ctrLat => .rw
  | .ctrLon => .rw
  | .hlatDeg => .rw
  | .hlonDeg => .rw
  | .mpdLat => .rw
  | .mpdLon => .rw
  | .hlatM => .rw
  | .hlonM => .rw
  | .errM => .rw
  | .code _ => .rw

/-- What a host read of a register returns (20_memory R52): its value zero-extended; CMD reads zero, CONFIG its constant. -/
def readReg (s : State) : Reg → PortWord
  | .cmd => 0
  | .status => s.status.setWidth 64
  | .config => configWord.setWidth 64
  | .latIn => s.latIn
  | .lonIn => s.lonIn
  | .qlat => s.qlat.setWidth 64
  | .qlon => s.qlon.setWidth 64
  | .sym => s.sym.setWidth 64
  | .char => s.char.setWidth 64
  | .codeLen => s.codeLen.setWidth 64
  | .ctrLat => s.ctrLat
  | .ctrLon => s.ctrLon
  | .hlatDeg => s.hlatDeg
  | .hlonDeg => s.hlonDeg
  | .mpdLat => s.mpdLat
  | .mpdLon => s.mpdLon
  | .hlatM => s.hlatM
  | .hlonM => s.hlonM
  | .errM => s.errM
  | .code j => (slot s.code j.val).setWidth 64

/-- What a host write puts in a register (20_memory R53): the low bits of the data that fit; CMD latches its word (R22);
STATUS and CONFIG ignore the write. Issuing the latched word is `issue` (Machine/Port.lean). -/
def writeReg (d : PortWord) (s : State) : Reg → State
  | .cmd => { s with cmd := d.setWidth 16 }
  | .status => s
  | .config => s
  | .latIn => { s with latIn := d }
  | .lonIn => { s with lonIn := d }
  | .qlat => { s with qlat := d.setWidth 56 }
  | .qlon => { s with qlon := d.setWidth 56 }
  | .sym => { s with sym := d.setWidth 5 }
  | .char => { s with char := d.setWidth 8 }
  | .codeLen => { s with codeLen := d.setWidth 8 }
  | .ctrLat => { s with ctrLat := d }
  | .ctrLon => { s with ctrLon := d }
  | .hlatDeg => { s with hlatDeg := d }
  | .hlonDeg => { s with hlonDeg := d }
  | .mpdLat => { s with mpdLat := d }
  | .mpdLon => { s with mpdLon := d }
  | .hlatM => { s with hlatM := d }
  | .hlonM => { s with hlonM := d }
  | .errM => { s with errM := d }
  | .code j => { s with code := setSlot s.code j.val (d.setWidth 8) }

/-- `HostRead(idx)` (R52): zero at a reserved index. -/
def hostRead (s : State) (idx : RegIndex) : PortWord :=
  match regAt idx with
  | some r => readReg s r
  | none => 0

end Sys2Proof.Machine
end

