-- ==== Sys2Proof/Machine/Alphabet.lean ====
section
/-! DEFINITION. The Alphabet Mapper (42_alphabet): the ROM, MAP and UNMAP. -/

namespace Sys2Proof.Machine

/-- The alphabet table's entries in order (R140, 10_state R33): `A` to `Z`, then `2` to `7`, in ASCII. -/
def romTable : List CharByte :=
  [0x41, 0x42, 0x43, 0x44, 0x45, 0x46, 0x47, 0x48] ++ [0x49, 0x4A, 0x4B, 0x4C, 0x4D, 0x4E, 0x4F, 0x50] ++
  [0x51, 0x52, 0x53, 0x54, 0x55, 0x56, 0x57, 0x58] ++ [0x59, 0x5A, 0x32, 0x33, 0x34, 0x35, 0x36, 0x37]

/-- `ROM[i]` (R12, R33). -/
def rom (i : Symbol) : CharByte := romTable.getD i.toNat 0

/-- `index(c)` (R141): the place of a byte in the table, none if it has none. -/
def indexOfChar (c : CharByte) : Option Symbol := (romTable.idxOf? c).map (BitVec.ofNat 5)

/-- MAP (R142). -/
def execMap (s : State) : Host.Outcome State Fault Refusal :=
  .next (complete { s with char := rom s.sym })

/-- UNMAP (R144). -/
def execUnmap (s : State) : Host.Outcome State Fault Refusal :=
  match indexOfChar s.char with
  | none => .next (raiseErr .invalidSymbol 0 s)
  | some i => .next (complete { s with sym := i })

end Sys2Proof.Machine
end

