-- ==== Sys2Proof/Machine/Interleaver.lean ====
section
/-! DEFINITION. The Bit Interleaver and De-interleaver (41_interleaver): CLRQ, ILV, DILV. -/

namespace Sys2Proof.Machine

/-! ## The bit budget (R120, R121) -/

/-- latw(j): 2 latitude bits at an even position, 3 at an odd one (R120). -/
def latw (j : Nat) : Nat := if j % 2 = 0 then 2 else 3

/-- lonw(j) = 5 − latw(j) (R120). -/
def lonw (j : Nat) : Nat := 5 - latw j

/-- odd(i) = ceil(i/2) (R121). -/
def oddCount (i : Nat) : Nat := (i + 1) / 2

/-- even(i) = i − odd(i) (R121). -/
def evenCount (i : Nat) : Nat := i - oddCount i

/-- Latitude bits consumed through position j (R121, with i = j + 1). -/
def cumLat (j : Nat) : Nat := 2 * oddCount (j + 1) + 3 * evenCount (j + 1)

/-- Longitude bits consumed through position j (R121). -/
def cumLon (j : Nat) : Nat := 3 * oddCount (j + 1) + 2 * evenCount (j + 1)

/-- shLat(j) = K − cumLat(j) (R121). -/
def shLat (j : Nat) : Nat := Config.k - cumLat j

/-- shLon(j) = K − cumLon(j) (R121). -/
def shLon (j : Nat) : Nat := Config.k - cumLon j

/-- fLat(j, q) = (q >> shLat(j)) & mask(latw(j)) (R122). -/
def fLat (j : Nat) (q : Fixed) : Nat := (q >>> shLat j).toNat % 2 ^ latw j

/-- fLon(j, r) = (r >> shLon(j)) & mask(lonw(j)) (R122). -/
def fLon (j : Nat) (r : Fixed) : Nat := (r >>> shLon j).toNat % 2 ^ lonw j

/-! ## The symbol layout (R123) -/

/-- One bit of a bit vector, as a bit vector. -/
def bitAt {w : Nat} (v : BitVec w) (i : Nat) : BitVec 1 := BitVec.ofBool (v.getLsbD i)

/-- pack(T, W) = (T[2], W[1], T[1], W[0], T[0]), bit 4 first (R123, 92_eei_decisions D8). -/
def pack (t : BitVec 3) (w : BitVec 2) : Symbol :=
  bitAt t 2 ++ bitAt w 1 ++ bitAt t 1 ++ bitAt w 0 ++ bitAt t 0

/-- unpackT(S) = (S[4], S[2], S[0]) (R123). -/
def unpackT (s : Symbol) : BitVec 3 := bitAt s 4 ++ bitAt s 2 ++ bitAt s 0

/-- unpackW(S) = (S[3], S[1]) (R123). -/
def unpackW (s : Symbol) : BitVec 2 := bitAt s 3 ++ bitAt s 1

/-- symbol(j, q, r) (R123): at an even position the 3-bit field is longitude, at an odd one latitude. -/
def symbolAt (j : Nat) (q r : Fixed) : Symbol :=
  if j % 2 = 0 then pack (BitVec.ofNat 3 (fLon j r)) (BitVec.ofNat 2 (fLat j q))
  else pack (BitVec.ofNat 3 (fLat j q)) (BitVec.ofNat 2 (fLon j r))

/-- The latitude field a of a symbol at position j (R128). -/
def latField (j : Nat) (s : Symbol) : Fixed :=
  if j % 2 = 0 then (unpackW s).setWidth 56 else (unpackT s).setWidth 56

/-- The longitude field b of a symbol at position j (R128). -/
def lonField (j : Nat) (s : Symbol) : Fixed :=
  if j % 2 = 0 then (unpackT s).setWidth 56 else (unpackW s).setWidth 56

/-- `QLAT | (a << shLat(j))` (R128). -/
def orLat (j : Nat) (s : Symbol) (q : Fixed) : Fixed := q ||| (latField j s <<< shLat j)

/-- `QLON | (b << shLon(j))` (R128). -/
def orLon (j : Nat) (s : Symbol) (r : Fixed) : Fixed := r ||| (lonField j s <<< shLon j)

/-! ## The commands -/

/-- CLRQ (R124). -/
def execClrq (s : State) : Host.Outcome State Fault Refusal :=
  .next (complete { s with qlat := 0, qlon := 0 })

/-- ILV j (R126). -/
def execIlv (j : Nat) (s : State) : Host.Outcome State Fault Refusal :=
  if positionOk j then .next (complete { s with sym := symbolAt j s.qlat s.qlon })
  else .next (raiseErr .codeTooLong 0 s)

/-- DILV j (R128). -/
def execDilv (j : Nat) (s : State) : Host.Outcome State Fault Refusal :=
  if positionOk j then
    .next (complete { s with qlat := orLat j s.sym s.qlat, qlon := orLon j s.sym s.qlon })
  else .next (raiseErr .codeTooLong 0 s)

end Sys2Proof.Machine
end

