-- ==== Sys2Proof/Machine/Float.lean ====
section
/-! DEFINITION. Binary64 arithmetic (00_scope R11) over bit patterns, exact in naturals until one rounding.
Every finite binary64 value is a whole number of units of 2^-1074: its magnitude is held as that number. -/

namespace Sys2Proof.Machine

/-! ## Fields and classes -/

/-- The sign, bit 63. -/
def fSign (x : F64) : Bool := x.getLsbD 63

/-- The biased exponent, bits 62:52. -/
def fExp (x : F64) : Nat := (x.extractLsb' 52 11).toNat

/-- The fraction, bits 51:0. -/
def fFrac (x : F64) : Nat := (x.extractLsb' 0 52).toNat

/-- Bits 62:0 as a number: they order the magnitudes. -/
def fBody (x : F64) : Nat := (x.extractLsb' 0 63).toNat

/-- Every NaN bit pattern (R11). -/
def isNaN (x : F64) : Bool := fExp x == 2047 && fFrac x != 0

/-- Either infinity. -/
def isInf (x : F64) : Bool := fExp x == 2047 && fFrac x == 0

/-- Neither NaN nor infinite. -/
def isFinite (x : F64) : Bool := fExp x != 2047

/-- Either zero. -/
def isZero (x : F64) : Bool := fBody x == 0

/-- The magnitude of a finite value in units of 2^-1074: subnormals as their fraction, normals with the hidden bit. -/
def fMag (x : F64) : Nat :=
  if fExp x = 0 then fFrac x else (2 ^ 52 + fFrac x) * 2 ^ (fExp x - 1)

/-! ## Building patterns -/

/-- The canonical quiet NaN (R11). -/
def canonNaN : F64 := 0x7FF8000000000000#64

/-- The body of the infinities. -/
def infBody : Nat := 2047 * 2 ^ 52

/-- A pattern from its sign and its body. -/
def ofBody (neg : Bool) (body : Nat) : F64 := BitVec.ofBool neg ++ BitVec.ofNat 63 body

/-- The infinity of a sign. -/
def fInf (neg : Bool) : F64 := ofBody neg infBody

/-- The zero of a sign. -/
def fZero (neg : Bool) : F64 := ofBody neg 0

/-! ## Rounding to nearest, ties to even (R11) -/

/-- The integer nearest to n/d, ties to even, for d > 0. -/
def roundQuot (n d : Nat) : Nat :=
  if 2 * (n % d) < d then n / d
  else if d < 2 * (n % d) then n / d + 1
  else n / d + (n / d) % 2

/-- How many low bits of the magnitude n/d (in units) lie below the 53 significant ones. -/
def roundShift (n d : Nat) : Nat := (n / d).log2 - 52

/-- The body of the binary64 value nearest to n/d units, ties to even: the significand is added to the shifted exponent,
so a carry out of the significand moves into the exponent, and a result past the largest finite value is infinite. -/
def roundBody (n d : Nat) : Nat :=
  min (roundShift n d * 2 ^ 52 + roundQuot n (d * 2 ^ roundShift n d)) infBody

/-- The binary64 value nearest to ±(n/d)·2^-1074. -/
def round64 (neg : Bool) (n d : Nat) : F64 := ofBody neg (roundBody n d)

/-! ## The primitives (R11) -/

/-- The pattern with its sign bit flipped; a NaN stays a NaN. -/
def fNeg (x : F64) : F64 := x ^^^ 0x8000000000000000#64

/-- The sum of two finite values; an exact zero sum of opposite signs is +0.0. -/
def addFinite (a b : F64) : F64 :=
  if fSign a = fSign b then round64 (fSign a) (fMag a + fMag b) 1
  else if fMag a = fMag b then fZero false
  else if fMag b < fMag a then round64 (fSign a) (fMag a - fMag b) 1
  else round64 (fSign b) (fMag b - fMag a) 1

/-- `fadd(a,b)` (R11). -/
def fadd (a b : F64) : F64 :=
  if isNaN a || isNaN b then canonNaN
  else if isInf a then (if isInf b && fSign a != fSign b then canonNaN else a)
  else if isInf b then b
  else addFinite a b

/-- `fsub(a,b)` (R11). -/
def fsub (a b : F64) : F64 := fadd a (fNeg b)

/-- `fmul(a,b)` (R11). -/
def fmul (a b : F64) : F64 :=
  if isNaN a || isNaN b then canonNaN
  else if isInf a || isInf b then
    (if isZero a || isZero b then canonNaN else fInf (fSign a ^^ fSign b))
  else round64 (fSign a ^^ fSign b) (fMag a * fMag b) (2 ^ 1074)

/-- `fdiv(a,b)` (R11). -/
def fdiv (a b : F64) : F64 :=
  if isNaN a || isNaN b then canonNaN
  else if isInf a then (if isInf b then canonNaN else fInf (fSign a ^^ fSign b))
  else if isInf b then fZero (fSign a ^^ fSign b)
  else if isZero b then (if isZero a then canonNaN else fInf (fSign a ^^ fSign b))
  else round64 (fSign a ^^ fSign b) (fMag a * 2 ^ 1074) (fMag b)

/-- `toF64(n)` (R11): a non-negative integer. -/
def toF64 (n : Nat) : F64 := round64 false (n * 2 ^ 1074) 1

/-- The binary64 value nearest to the decimal literal ±m·10^e (R11, and `f64(x)` of R78). -/
def ofDecimal (neg : Bool) (m : Nat) (e : Int) : F64 :=
  match e with
  | .ofNat p => round64 neg (m * 10 ^ p * 2 ^ 1074) 1
  | .negSucc p => round64 neg (m * 2 ^ 1074) (10 ^ (p + 1))

/-- `x <= 0` for an x that is not NaN. -/
def leZero (x : F64) : Bool := fSign x || isZero x

/-- `a > b` for an a that is not NaN and a positive b. -/
def gtPos (a b : F64) : Bool := !fSign a && decide (fBody b < fBody a)

/-! ## Literals -/

/-- 1.0 -/
def c1 : F64 := 0x3FF0000000000000#64
/-- 2.0 -/
def c2 : F64 := 0x4000000000000000#64
/-- 4.0 -/
def c4 : F64 := 0x4010000000000000#64
/-- 90.0 -/
def c90 : F64 := 0x4056800000000000#64
/-- 180.0 -/
def c180 : F64 := 0x4066800000000000#64
/-- 360.0 -/
def c360 : F64 := 0x4076800000000000#64
/-- 2^56 -/
def c2p56 : F64 := 0x4370000000000000#64
/-- 111132.92 (R165) -/
def c111132_92 : F64 := 0x40FB21CEB851EB85#64
/-- 559.82 (R165) -/
def c559_82 : F64 := 0x40817E8F5C28F5C3#64
/-- 1.175 (R165) -/
def c1_175 : F64 := 0x3FF2CCCCCCCCCCCD#64
/-- PI64, the binary64 value nearest to π (R165) -/
def pi64 : F64 := 0x400921FB54442D18#64

/-! ## COS64 and HYPOT64: the free parameters (R14) within the spec's limits -/

/-- A non-finite pattern made finite by clearing its top exponent bit; a finite one as it is. -/
def finitePart (x : F64) : F64 :=
  if isFinite x then x else x &&& 0xBFFFFFFFFFFFFFFF#64

/-- A NaN pattern made the canonical one (R11); any other as it is. -/
def canonical (x : F64) : F64 := if isNaN x then canonNaN else x

/-- A pattern below zero made positive; -0.0, and any other, as it is. -/
def nonNegative (x : F64) : F64 :=
  if isZero x then x else x &&& 0x7FFFFFFFFFFFFFFF#64

/-- A NaN pattern made an infinity by clearing its fraction; any other as it is. -/
def nonNaN (x : F64) : F64 := if isNaN x then x &&& 0xFFF0000000000000#64 else x

/-- What the spec lets through of a cosine f: the cosine of a NaN or an infinity is the canonical NaN (R166, R14), and that
of a finite value is finite (R14: an approximation of the cosine; 93_implementation_defined row 13). DEDUCED, log entry 4. -/
def cosLimit (f : F64 → F64) (x : F64) : F64 :=
  if isFinite x then finitePart (f x) else canonNaN

/-- What the spec lets through of a hypotenuse h: a NaN operand beside no infinity gives the canonical NaN (R166); every
other result is not below zero (R166), and no NaN when both operands are finite (93_implementation_defined row 13).
Beside an infinity the result stays open. DEDUCED, log entry 5. -/
def hypotLimit (h : F64 → F64 → F64) (x y : F64) : F64 :=
  if isInf x || isInf y then canonical (nonNegative (h x y))
  else if isNaN x || isNaN y then canonNaN
  else nonNaN (nonNegative (h x y))

/-- `COS64(x)` (R14): the free parameter within its limits. -/
def cos64 (x : F64) : F64 := cosLimit Config.cos64Free x

/-- `HYPOT64(x, y)` (R14): the free parameter within its limits. -/
def hypot64 (x y : F64) : F64 := hypotLimit Config.hypot64Free x y

end Sys2Proof.Machine
end

