-- ==== Sys2Proof/Machine/Normalizer.lean ====
section
/-! DEFINITION. The Normalizer and Denormalizer (40_normalizer): NORM and DENORM. -/

namespace Sys2Proof.Machine

/-- `normAxis(t)` (R102) for a fraction t that is not NaN: clamp to [0, 1], scale by 2^56, floor, saturate at 2^56 − 1.
In units of 2^-1074 the exact product t·2^56 is `fMag t * 2^56`, and its floor as an integer the quotient by 2^1074. -/
def normAxis (t : F64) : Nat :=
  if leZero t then 0
  else min (fMag (if gtPos t c1 then c1 else t) * 2 ^ 56 / 2 ^ 1074) (2 ^ 56 - 1)

/-- `normLat(lat)` (R102). -/
def normLat (lat : F64) : Fixed := BitVec.ofNat 56 (normAxis (fdiv (fsub c90 lat) c180))

/-- `normLon(lon)` (R102). -/
def normLon (lon : F64) : Fixed := BitVec.ofNat 56 (normAxis (fdiv (fadd lon c180) c360))

/-- `denormLat(q)` (R104). -/
def denormLat (q : Fixed) : F64 := fsub c90 (fmul (fdiv (toF64 q.toNat) c2p56) c180)

/-- `denormLon(q)` (R104). -/
def denormLon (q : Fixed) : F64 := fsub (fmul (fdiv (toF64 q.toNat) c2p56) c360) c180

/-- The input is refused by NORM and ENCODE (60_exceptions R201): either coordinate is a NaN. -/
def badCoordinate (s : State) : Bool := isNaN s.latIn || isNaN s.lonIn

/-- NORM (R103). -/
def execNorm (s : State) : Host.Outcome State Fault Refusal :=
  if badCoordinate s then .next (raiseErr .invalidCoordinate 0 s)
  else .next (complete { s with qlat := normLat s.latIn, qlon := normLon s.lonIn })

/-- DENORM (R105). -/
def execDenorm (s : State) : Host.Outcome State Fault Refusal :=
  .next (complete { s with ctrLat := denormLat s.qlat, ctrLon := denormLon s.qlon })

end Sys2Proof.Machine
end

