-- ==== Sys2Proof/Machine/Precision.lean ====
section
/-! DEFINITION. The Precision Estimator (43_precision): HALF, CENTER, METERS. -/

namespace Sys2Proof.Machine

/-! ## Resolved bits and half-cells (R160, R161) -/

/-- latbits(L) = 2·odd + 3·even with even = L/2 and odd = L − even (R160). -/
def latBits (l : Nat) : Nat := 2 * (l - l / 2) + 3 * (l / 2)

/-- lonbits(L) = 3·odd + 2·even (R160). -/
def lonBits (l : Nat) : Nat := 3 * (l - l / 2) + 2 * (l / 2)

/-- hqLat(L) = 2^(55 − latbits(L)) in fixed-point units (R161). -/
def hqLat (l : Nat) : Nat := 2 ^ (Config.k - 1 - latBits l)

/-- hqLon(L) = 2^(55 − lonbits(L)) (R161). -/
def hqLon (l : Nat) : Nat := 2 ^ (Config.k - 1 - lonBits l)

/-- hdegLat(L) (R161). -/
def hdegLat (l : Nat) : F64 := fdiv (fmul (toF64 (hqLat l)) c180) c2p56

/-- hdegLon(L) (R161). -/
def hdegLon (l : Nat) : F64 := fdiv (fmul (toF64 (hqLon l)) c360) c2p56

/-- `(q + half-cell) mod 2^56` (R164, 92_eei_decisions D17). -/
def addHalf (q : Fixed) (half : Nat) : Fixed := q + BitVec.ofNat 56 half

/-! ## Metric scale factors (R165), for a cosine and a hypotenuse given as arguments (R14) -/

/-- RAD = fdiv(PI64, 180.0) (R165). -/
def radPerDeg : F64 := fdiv pi64 c180

/-- phi, the latitude in radians (R165). -/
def phi (lat : F64) : F64 := fmul lat radPerDeg

/-- mpdLat(lat_deg) (R165), in the written order. -/
def mpdLat (cosF : F64 → F64) (lat : F64) : F64 :=
  fadd (fsub c111132_92 (fmul c559_82 (cosF (fmul c2 (phi lat)))))
    (fmul c1_175 (cosF (fmul c4 (phi lat))))

/-- mpdLon(lat_deg) (R165; 90_conflicts C1). -/
def mpdLon (cosF : F64 → F64) (lat : F64) : F64 := fmul (mpdLat cosF lat) (cosF (phi lat))

/-- The five metric registers for a center latitude and two half-extents in degrees (R166; the same lines of R184). -/
def withMetrics (cosF : F64 → F64) (hypF : F64 → F64 → F64) (lat hl ho : F64) (s : State) : State :=
  { s with
    mpdLat := mpdLat cosF lat
    mpdLon := mpdLon cosF lat
    hlatM := fmul hl (mpdLat cosF lat)
    hlonM := fmul ho (mpdLon cosF lat)
    errM := hypF (fmul hl (mpdLat cosF lat)) (fmul ho (mpdLon cosF lat)) }

/-! ## The commands -/

/-- HALF L (R162). -/
def execHalf (l : Nat) (s : State) : Host.Outcome State Fault Refusal :=
  if lengthOk l then .next (complete { s with hlatDeg := hdegLat l, hlonDeg := hdegLon l })
  else .next (raiseErr .codeTooLong 0 s)

/-- CENTER L (R164). -/
def execCenter (l : Nat) (s : State) : Host.Outcome State Fault Refusal :=
  if lengthOk l then
    .next (complete { s with qlat := addHalf s.qlat (hqLat l), qlon := addHalf s.qlon (hqLon l) })
  else .next (raiseErr .codeTooLong 0 s)

/-- METERS (R166). -/
def execMeters (s : State) : Host.Outcome State Fault Refusal :=
  .next (complete (withMetrics cos64 hypot64 s.ctrLat s.hlatDeg s.hlonDeg s))

end Sys2Proof.Machine
end

