-- ==== Sys2Proof/Machine/Codec.lean ====
section
/-! DEFINITION. The coordinate operations (44_codec): NOP, ENCODE, DECODE. -/

namespace Sys2Proof.Machine

/-! ## ENCODE (R182) -/

/-- The character of position j of the code of (q, r) (R127). -/
def codeChar (q r : Fixed) (j : Nat) : CharByte := rom (symbolAt j q r)

/-- The registers ENCODE L writes for the fixed-point coordinate (q, r) (R182). -/
def withCode (l : Nat) (q r : Fixed) (s : State) : State :=
  { s with code := fillSlots (codeChar q r) l s.code, codeLen := BitVec.ofNat 8 l, qlat := q, qlon := r }

/-! ## DECODE (R184) -/

/-- The lowest position below L whose character is not in the alphabet (R184, 10_state R26). -/
def firstInvalid (c : CodeBuffer) (l : Nat) : Option Nat :=
  (List.range l).find? fun j => (indexOfChar (slot c j)).isNone

/-- The symbol of position j of a code whose characters are all in the alphabet (R184: `s <- index(CODE[j])`). -/
def codeSymbol (c : CodeBuffer) (j : Nat) : Symbol := (indexOfChar (slot c j)).getD 0

/-- QLAT of the lower corner of the code's first L characters (R184). -/
def cornerLat (c : CodeBuffer) : Nat → Fixed
  | 0 => 0
  | j + 1 => orLat j (codeSymbol c j) (cornerLat c j)

/-- QLON of the lower corner of the code's first L characters (R184). -/
def cornerLon (c : CodeBuffer) : Nat → Fixed
  | 0 => 0
  | j + 1 => orLon j (codeSymbol c j) (cornerLon c j)

/-- The registers DECODE writes for a center (q, r) and a length L (R184). -/
def withEstimate (q r : Fixed) (l : Nat) (s : State) : State :=
  withMetrics cos64 hypot64 (denormLat q) (hdegLat l) (hdegLon l)
    { s with
      qlat := q
      qlon := r
      ctrLat := denormLat q
      ctrLon := denormLon r
      hlatDeg := hdegLat l
      hlonDeg := hdegLon l }

/-! ## The commands -/

/-- NOP (R180). -/
def execNop (s : State) : Host.Outcome State Fault Refusal := .next (complete s)

/-- ENCODE L (R182): the length first, then the coordinate (60_exceptions R205). -/
def execEncode (l : Nat) (s : State) : Host.Outcome State Fault Refusal :=
  if lengthOk l then
    (if badCoordinate s then .next (raiseErr .invalidCoordinate 0 s)
     else .next (complete (withCode l (normLat s.latIn) (normLon s.lonIn) s)))
  else .next (raiseErr .codeTooLong 0 s)

/-- DECODE (R184): the length first, then the characters (60_exceptions R205). -/
def execDecode (s : State) : Host.Outcome State Fault Refusal :=
  let l := s.codeLen.toNat
  if lengthOk l then
    match firstInvalid s.code l with
    | some j => .next (raiseErr .invalidSymbol (BitVec.ofNat 8 j) s)
    | none =>
      .next (complete (withEstimate (addHalf (cornerLat s.code l) (hqLat l))
        (addHalf (cornerLon s.code l) (hqLon l)) l s))
  else .next (raiseErr .codeTooLong 0 s)

end Sys2Proof.Machine
end

