-- ==== Sys2Proof/Machine/Dispatch.lean ====
section
/-! DEFINITION. One arm per command (30_encoding R73). -/

namespace Sys2Proof.Machine

def exec (i : Instr) (s : State) : Host.Outcome State Fault Refusal :=
  match i with
  | .nop => Sys2Proof.Machine.execNop s
  | .norm => Sys2Proof.Machine.execNorm s
  | .denorm => Sys2Proof.Machine.execDenorm s
  | .clrq => Sys2Proof.Machine.execClrq s
  | .ilv j => Sys2Proof.Machine.execIlv j s
  | .dilv j => Sys2Proof.Machine.execDilv j s
  | .map => Sys2Proof.Machine.execMap s
  | .unmap => Sys2Proof.Machine.execUnmap s
  | .half l => Sys2Proof.Machine.execHalf l s
  | .center l => Sys2Proof.Machine.execCenter l s
  | .meters => Sys2Proof.Machine.execMeters s
  | .encode l => Sys2Proof.Machine.execEncode l s
  | .decode => Sys2Proof.Machine.execDecode s

end Sys2Proof.Machine
end

