-- ==== Sys2Proof/Machine/Port.lean ====
section
/-! DEFINITION. What one accepted port event does (20_memory R52, R53, R55; 10_state R22; 70_reset R230). -/

namespace Sys2Proof.Machine

/-- Issue the command word in CMD (10_state R22): the command it spells, or IllegalCommand (30_encoding R74, R202). -/
def issue (s : State) : Host.Outcome State Fault Refusal :=
  match decode s.cmd with
  | .ok i => exec i s
  | .error _ => .next (raiseErr .illegalCommand 0 s)

/-- `HostWrite(idx, d)` (R53): a write to CMD latches the word and issues it, all in one transition (R55);
at a reserved index nothing changes. -/
def hostWrite (s : State) (idx : RegIndex) (d : PortWord) : Host.Outcome State Fault Refusal :=
  match regAt idx with
  | some r => if r = .cmd then issue (writeReg d s .cmd) else .next (writeReg d s r)
  | none => .next s

/-- Reset (R230, R35): every register to its reset value; the host's own side of the port is not the block's to reset. -/
def resetBlock (s : State) : State := { State.reset with port := s.port, reads := s.reads }

/-- One event the port accepts (R57). A read changes no register; the value it returns joins `reads` (R52, R238). -/
def accept (e : PortEvent) (s : State) : Host.Outcome State Fault Refusal :=
  match e with
  | .read idx => .next { s with reads := s.reads ++ [hostRead s idx] }
  | .write idx d => hostWrite s idx d
  | .reset => .next (resetBlock s)

/-- One transition: the oldest pending event (R55, R57); with none pending the block is idle and keeps its state
(70_reset R231; DESIGN CHOICE, log entry 3). -/
def takeEvent (s : State) : Host.Outcome State Fault Refusal :=
  match s.port with
  | [] => .next s
  | e :: rest => accept e { s with port := rest }

/-- The port event that issues an opcode-table word: a host write of the word to CMD (R22). -/
def cmdEvent (nbits w : Nat) : PortEvent := .write (indexOf .cmd) ((tableCmdWord nbits w).setWidth 64)

end Sys2Proof.Machine
end

