-- ==== Sys2Proof/Machine/Step.lean ====
section
/-! DEFINITION. One step of the block, and how a command comes to it (log entry 6). -/

namespace Sys2Proof.Machine

/-- One step: the next access of the port (20_memory R55, R57). -/
def step (s : State) : Host.Outcome State Fault Refusal := takeEvent s

/-- The state whose very next step issues an opcode-table word: the block fetches nothing (20_memory R60), so the word is put
before every pending access as a host write to CMD. -/
def State.withFetchWord (s : State) (nbits w : Nat) : State := { s with port := cmdEvent nbits w :: s.port }

end Sys2Proof.Machine
end

