-- ==== Sys2Proof/Machine/Assembly.lean ====
section
/-! DEFINITION. The lines of host programs (30_encoding R77 to R79) as data, and the port events they stand for. Reading a
line's text is Machine/AsmText.lean. -/

namespace Sys2Proof.Machine

/-- The mnemonics of R77. -/
inductive Mnemonic where
  | NOP | NORM | DENORM | CLRQ | ILV | DILV | MAP | UNMAP | HALF | CENTER | METERS | ENCODE | DECODE
deriving DecidableEq, Repr

/-- Why a line is an assembly error (R77, R79). -/
inductive AsmError where
  /-- A mnemonic that takes an operand stands without one. -/
  | missingOperand
  /-- A mnemonic that takes none stands with one, or with more than it takes. -/
  | extraOperand
  /-- An operand above 255. -/
  | operandOutOfRange
  /-- `WRC` with more than 18 bytes. -/
  | codeTooLong
  /-- The text is no line of the notation. -/
  | notALine
deriving DecidableEq, Repr

/-- A line of a host program: a command, a host step of R78, or a pseudo-instruction of R79. -/
inductive AsmLine where
  | command (m : Mnemonic) (operands : List Nat)
  /-- `WR REG, value` -/
  | wr (r : Reg) (value : PortWord)
  /-- `RD REG` -/
  | rd (r : Reg)
  /-- `WRC "s"` -/
  | wrc (bytes : List CharByte)
  /-- `WRCOORD lat, lon` -/
  | wrcoord (lat lon : F64)
  /-- `SETL n` -/
  | setl (n : PortWord)
deriving DecidableEq, Repr

/-- A mnemonic written without an operand (R77). -/
def asmPlain (i : Instr) : List Nat → Except AsmError Instr
  | [] => .ok i
  | _ :: _ => .error .extraOperand

/-- A mnemonic written with one operand 0..255 (R77). -/
def asmOperand (mk : Nat → Instr) : List Nat → Except AsmError Instr
  | [] => .error .missingOperand
  | [n] => if operandFits n then .ok (mk n) else .error .operandOutOfRange
  | _ :: _ :: _ => .error .extraOperand

/-- The command of a mnemonic and its operands (R77). -/
def asmCommand : Mnemonic → List Nat → Except AsmError Instr
  | .NOP => asmPlain .nop
  | .NORM => asmPlain .norm
  | .DENORM => asmPlain .denorm
  | .CLRQ => asmPlain .clrq
  | .ILV => asmOperand .ilv
  | .DILV => asmOperand .dilv
  | .MAP => asmPlain .map
  | .UNMAP => asmPlain .unmap
  | .HALF => asmOperand .half
  | .CENTER => asmOperand .center
  | .METERS => asmPlain .meters
  | .ENCODE => asmOperand .encode
  | .DECODE => asmPlain .decode

/-- The host write that issues a command: `WR CMD, cw` (R78). -/
def commandEvent (i : Instr) : PortEvent := .write (indexOf .cmd) ((encode i).setWidth 64)

/-- `WR CODE[j], s_j` for the bytes from position j on (R79). -/
def wrcSlots : Nat → List CharByte → List PortEvent
  | _, [] => []
  | j, b :: bs => .write (BitVec.ofNat 6 (0x20 + j)) (b.setWidth 64) :: wrcSlots (j + 1) bs

/-- `WR CODE_LEN, n` (R79). -/
def setLength (n : PortWord) : PortEvent := .write (indexOf .codeLen) n

/-- The port events of a line (R77 to R79). -/
def assemble : AsmLine → Except AsmError (List PortEvent)
  | .command m ops => (asmCommand m ops).map fun i => [commandEvent i]
  | .wr r v => .ok [.write (indexOf r) v]
  | .rd r => .ok [.read (indexOf r)]
  | .wrc bytes =>
    if lengthOk bytes.length then .ok (wrcSlots 0 bytes ++ [setLength (BitVec.ofNat 64 bytes.length)])
    else .error .codeTooLong
  | .wrcoord lat lon => .ok [.write (indexOf .latIn) lat, .write (indexOf .lonIn) lon]
  | .setl n => .ok [setLength n]

end Sys2Proof.Machine
end

