-- ==== Sys2Proof/Safety.lean ====
section
/-! DEFINITION. What counts as a good state and a safe run, in the terms claims use. -/

namespace Sys2Proof.Machine

/-- STATUS as the spec says it always reads (10_state R23 to R26): bits 7:5 zero, ERR at most 4, STICKY set whenever ERR is
not OK, EPOS zero unless ERR is InvalidSymbol, and then a position 0 to 17. -/
structure StatusInv (s : State) : Prop where
  reserved : statusReserved s.status = 0
  err_le : (errOf s.status).toNat ≤ 4
  err_sticky : errOf s.status ≠ 0 → stickyOf s.status = true
  epos_only_invalidSymbol : eposOf s.status ≠ 0 → errOf s.status = errValue .invalidSymbol
  epos_le : (eposOf s.status).toNat ≤ 17

/-- The last command completed (10_state R24). -/
def State.ok (s : State) : Prop := errOf s.status = 0

/-- No reset is pending: the run from here keeps STICKY (10_state R25). -/
def State.noResetPending (s : State) : Prop := PortEvent.reset ∉ s.port

/-- The run of n steps from s is error-free: after each of its steps the last command has completed
(60_exceptions R208; 70_reset R238). -/
def ErrorFree (n : Nat) (s : State) : Prop :=
  ∀ k ≤ n, ∀ u, Sys2Proof.core.run k s = .next u → errOf u.status = 0

/-- Two states whose block is the same: every register and slot, the host's side of the port apart. -/
def sameBlock (s t : State) : Prop := { s with port := t.port, reads := t.reads } = t

/-! ## The value of a binary64 pattern and IEEE rounding (00_scope R11), in exact rationals -/

/-- How many units of 2^-1074 (the unit of `fMag`) make 1. -/
@[irreducible] def unitsPerOne : ℚ := 2 ^ 1074

/-- The value of a finite pattern. -/
def fVal (x : F64) : ℚ := (if fSign x then -1 else 1) * ((fMag x : ℚ) / unitsPerOne)

/-- Where rounding to nearest first overflows: halfway from the largest finite value to 2^1024. -/
@[irreducible] def overflowBound : ℚ := 2 ^ 1024 - 2 ^ 970

/-- `r` is the binary64 value nearest to x, ties to even (R11). The sign of a zero result for x = 0 is each operation's own. -/
structure RoundsTo (x : ℚ) (r : F64) : Prop where
  overflow : overflowBound ≤ |x| → r = fInf (decide (x < 0))
  finite : |x| < overflowBound → isFinite r = true
  nearest : |x| < overflowBound → ∀ y, isFinite y = true → |fVal r - x| ≤ |fVal y - x|
  tie_even : |x| < overflowBound → ∀ y, isFinite y = true → fVal y ≠ fVal r → |fVal y - x| = |fVal r - x| →
    r.getLsbD 0 = false
  sign : x ≠ 0 → fSign r = decide (x < 0)

end Sys2Proof.Machine
end

