-- ==== Sys2Proof/Certificates/Slice0/Obligations.lean ====
section
/-! DEFINITION. The statements for the provers, and the terms of the spec they are written in. The terms repeat the spec's own
formulas in numbers and exact rationals, apart from the model's definitions, so that a slip in either shows. -/

namespace Sys2Proof.Spec

open Sys2Proof.Machine

/-! ## How a command ends -/

/-- The state a completing command leaves, from the registers it wrote (10_state R24 to R26): ERR and EPOS are 0, STICKY,
bit 4, is as it was in `s`, and the reserved bits are 0. -/
def done (s written : State) : State := { written with status := s.status &&& 0x0010#16 }

/-- The state an error leaves (60_exceptions R204): STATUS.ERR, STATUS.EPOS, STICKY = 1, and nothing else. -/
def failed (s : State) (err : BitVec 4) (epos : BitVec 8) : State := { s with status := epos ++ 0x1#4 ++ err }

/-! ## Commands (30_encoding) -/

/-- The command of an opcode and an operand (R73, R74), none where they spell none. -/
def commandNamed (op n : Nat) : Option Instr :=
  match op, n with
  | 0x0, 0 => some .nop
  | 0x1, 0 => some .norm
  | 0x2, 0 => some .denorm
  | 0x3, 0 => some .clrq
  | 0x4, n => some (.ilv n)
  | 0x5, n => some (.dilv n)
  | 0x6, 0 => some .map
  | 0x7, 0 => some .unmap
  | 0x8, n => some (.half n)
  | 0x9, n => some (.center n)
  | 0xA, 0 => some .meters
  | 0xB, n => some (.encode n)
  | 0xC, 0 => some .decode
  | _, _ => none

/-- A word that spells no command (R72, R74, R202): RSV is not 0, OP is 0xD to 0xF, or N is not 0 for a command without one. -/
def spellsNoCommand (w : CmdWord) : Prop :=
  w.toNat / 16 % 16 ≠ 0 ∨ 13 ≤ w.toNat % 16 ∨
    (w.toNat % 16 ∈ [0x0, 0x1, 0x2, 0x3, 0x6, 0x7, 0xA, 0xC] ∧ w.toNat / 256 ≠ 0)

/-- `w` is the word of `i`, and the only word of its opcode that spells a command: every other one raises IllegalCommand when
it is issued (R71 to R75). -/
def soleWord (w : CmdWord) (i : Instr) : Prop :=
  encode i = w ∧
  ∀ s : State, s.cmd.toNat % 16 = w.toNat → issue s = if s.cmd = w then exec i s else .next (failed s 4 0)

/-- The words of opcode `op` spell `mk n` with n in bits 15:8, and raise IllegalCommand where RSV is not 0 (R71 to R74). -/
def operandWords (op : Nat) (mk : Nat → Instr) : Prop :=
  (∀ n ≤ 255, encode (mk n) = BitVec.ofNat 16 (n * 256 + op)) ∧
  ∀ s : State, s.cmd.toNat % 16 = op →
    issue s = if s.cmd.toNat / 16 % 16 = 0 then exec (mk (s.cmd.toNat / 256)) s else .next (failed s 4 0)

/-! ## The register port (10_state R21, 20_memory R52) -/

/-- What a host read of index n returns, as a number. -/
def registerValue (s : State) (n : Nat) : Nat :=
  match n with
  | 0x01 => s.status.toNat
  | 0x02 => 0x00201238
  | 0x04 => s.latIn.toNat
  | 0x05 => s.lonIn.toNat
  | 0x06 => s.qlat.toNat
  | 0x07 => s.qlon.toNat
  | 0x08 => s.sym.toNat
  | 0x09 => s.char.toNat
  | 0x0A => s.codeLen.toNat
  | 0x10 => s.ctrLat.toNat
  | 0x11 => s.ctrLon.toNat
  | 0x12 => s.hlatDeg.toNat
  | 0x13 => s.hlonDeg.toNat
  | 0x14 => s.mpdLat.toNat
  | 0x15 => s.mpdLon.toNat
  | 0x16 => s.hlatM.toNat
  | 0x17 => s.hlonM.toNat
  | 0x18 => s.errM.toNat
  | n => if 0x20 ≤ n ∧ n ≤ 0x31 then (slot s.code (n - 0x20)).toNat else 0

/-- The width of the host-writable register at index n, 0 where there is none. -/
def writableWidth (n : Nat) : Nat :=
  if n = 0x04 ∨ n = 0x05 then 64
  else if n = 0x06 ∨ n = 0x07 then 56
  else if n = 0x08 then 5
  else if n = 0x09 ∨ n = 0x0A then 8
  else if 0x10 ≤ n ∧ n ≤ 0x18 then 64
  else if 0x20 ≤ n ∧ n ≤ 0x31 then 8
  else 0

/-- The reserved indices (20_memory R51). -/
def reservedIndex (n : Nat) : Prop :=
  n = 0x03 ∨ (0x0B ≤ n ∧ n ≤ 0x0F) ∨ (0x19 ≤ n ∧ n ≤ 0x1F) ∨ (0x32 ≤ n ∧ n ≤ 0x3F)

/-! ## The alphabet (42_alphabet R140) -/

/-- The byte of index i: `A` to `Z`, then `2` to `7`. -/
def charOf (i : Nat) : CharByte := BitVec.ofNat 8 (if i ≤ 25 then 0x41 + i else 0x32 + (i - 26))

/-- The 32 bytes of the alphabet. -/
def inAlphabet (b : CharByte) : Prop :=
  (0x41 ≤ b.toNat ∧ b.toNat ≤ 0x5A) ∨ (0x32 ≤ b.toNat ∧ b.toNat ≤ 0x37)

/-! ## The interleaver (41_interleaver R121, R123), with the shifts of R121's table in closed form -/

/-- shLat(j). -/
def latShift (j : Nat) : Nat := if j % 2 = 0 then 54 - 5 * (j / 2) else 51 - 5 * (j / 2)

/-- shLon(j). -/
def lonShift (j : Nat) : Nat := if j % 2 = 0 then 53 - 5 * (j / 2) else 51 - 5 * (j / 2)

/-- The symbol of a 3-bit field t and a 2-bit field w: bits t2 w1 t1 w0 t0. -/
def spread (t w : Nat) : Nat := 16 * (t / 4 % 2) + 8 * (w / 2 % 2) + 4 * (t / 2 % 2) + 2 * (w % 2) + t % 2

/-- The 3-bit field of a symbol. -/
def field3 (sym : Nat) : Nat := 4 * (sym / 16 % 2) + 2 * (sym / 4 % 2) + sym % 2

/-- The 2-bit field of a symbol. -/
def field2 (sym : Nat) : Nat := 2 * (sym / 8 % 2) + sym / 2 % 2

/-- The symbol of position j of the fixed-point coordinate (q, r). -/
def symbolNat (j q r : Nat) : Nat :=
  if j % 2 = 0 then spread (r / 2 ^ lonShift j % 8) (q / 2 ^ latShift j % 4)
  else spread (q / 2 ^ latShift j % 8) (r / 2 ^ lonShift j % 4)

/-- The latitude field of a symbol at position j. -/
def latPart (j sym : Nat) : Nat := if j % 2 = 0 then field2 sym else field3 sym

/-- The longitude field of a symbol at position j. -/
def lonPart (j sym : Nat) : Nat := if j % 2 = 0 then field3 sym else field2 sym

/-! ## The precision estimator (43_precision R160) -/

/-- latbits(L). -/
def latbits (l : Nat) : Nat := 2 * (l - l / 2) + 3 * (l / 2)

/-- lonbits(L). -/
def lonbits (l : Nat) : Nat := 3 * (l - l / 2) + 2 * (l / 2)

/-- q & ~mask(56 − bits): the top bits of an axis, zero below (41_interleaver R129). -/
def topBits (bits : Nat) (q : Fixed) : Fixed := q &&& ~~~ BitVec.ofNat 56 (2 ^ (56 - bits) - 1)

/-! ## The normalizer (40_normalizer R102, R104) in rationals -/

/-- `normAxis` of a finite fraction t. -/
def fixedOf (t : ℚ) : Nat := if t ≤ 0 then 0 else min ⌊min t 1 * 2 ^ 56⌋₊ (2 ^ 56 - 1)

/-- `q` is `normLat(lat)`: (90 − lat)/180, each operation rounded, then `normAxis`; +inf is clamped to 0, −inf to 2^56 − 1. -/
def LatFixed (lat : F64) (q : Nat) : Prop :=
  (isInf lat = true ∧ q = if fSign lat then 2 ^ 56 - 1 else 0) ∨
  (isFinite lat = true ∧ ∃ d f, RoundsTo (90 - fVal lat) d ∧ RoundsTo (fVal d / 180) f ∧ q = fixedOf (fVal f))

/-- `q` is `normLon(lon)`: (lon + 180)/360, each operation rounded, then `normAxis`; −inf is clamped to 0, +inf to 2^56 − 1. -/
def LonFixed (lon : F64) (q : Nat) : Prop :=
  (isInf lon = true ∧ q = if fSign lon then 0 else 2 ^ 56 - 1) ∨
  (isFinite lon = true ∧ ∃ d f, RoundsTo (fVal lon + 180) d ∧ RoundsTo (fVal d / 360) f ∧ q = fixedOf (fVal f))

/-- `x` is `denormLat(q)`: 90 − (q/2^56)·180, each operation rounded; an exact zero is +0.0. -/
def LatDegrees (q : Nat) (x : F64) : Prop :=
  ∃ a b d, RoundsTo q a ∧ RoundsTo (fVal a / 2 ^ 56) b ∧ RoundsTo (fVal b * 180) d ∧ RoundsTo (90 - fVal d) x ∧
    (fVal d = 90 → x = 0)

/-- `x` is `denormLon(q)`: (q/2^56)·360 − 180, each operation rounded; an exact zero is +0.0. -/
def LonDegrees (q : Nat) (x : F64) : Prop :=
  ∃ a b d, RoundsTo q a ∧ RoundsTo (fVal a / 2 ^ 56) b ∧ RoundsTo (fVal b * 360) d ∧ RoundsTo (fVal d - 180) x ∧
    (fVal d = 180 → x = 0)

/-- a ≤ b for two patterns that are not NaN. -/
def LeF (a b : F64) : Prop :=
  (isInf a = true ∧ fSign a = true) ∨ (isInf b = true ∧ fSign b = false) ∨
  (isFinite a = true ∧ isFinite b = true ∧ fVal a ≤ fVal b)

/-! ## The metric formulas (43_precision R165, R166), with the spec's own bit patterns -/

/-- phi, for RAD = 0x3F91DF46A2529D39. -/
def phiOf (lat : F64) : F64 := fmul lat 0x3F91DF46A2529D39#64

/-- mpdLat. -/
def mpdLatOf (lat : F64) : F64 :=
  fadd (fsub 0x40FB21CEB851EB85#64 (fmul 0x40817E8F5C28F5C3#64 (cos64 (fmul 0x4000000000000000#64 (phiOf lat)))))
    (fmul 0x3FF2CCCCCCCCCCCD#64 (cos64 (fmul 0x4010000000000000#64 (phiOf lat))))

/-- mpdLon. -/
def mpdLonOf (lat : F64) : F64 := fmul (mpdLatOf lat) (cos64 (phiOf lat))

/-! ## The unit-by-unit sequences of 44_codec R183 and R185 -/

/-- Run one command. -/
def cmd (i : Instr) (s : State) : State :=
  match exec i s with
  | .next t => t
  | .fault _ => s
  | .refused _ => s

/-- One host write. -/
def wr (idx : Nat) (d : PortWord) (s : State) : State :=
  match hostWrite s (BitVec.ofNat 6 idx) d with
  | .next t => t
  | .fault _ => s
  | .refused _ => s

/-- For j below n: ILV j, MAP, and a host copy of CHAR into CODE[j]. -/
def encodeUnits : Nat → State → State
  | 0, s => s
  | j + 1, s =>
    let a := cmd .map (cmd (.ilv j) (encodeUnits j s))
    wr (0x20 + j) (hostRead a 0x09#6) a

/-- For j below n: a host copy of CODE[j] into CHAR, UNMAP, DILV j. -/
def decodeUnits : Nat → State → State
  | 0, s => s
  | j + 1, s =>
    let a := decodeUnits j s
    cmd (.dilv j) (cmd .unmap (wr 0x09 (hostRead a (BitVec.ofNat 6 (0x20 + j))) a))

/-- For j below n: DILV j of the symbol of position j of (q, r). -/
def recoverUnits (q r : Fixed) : Nat → State → State
  | 0, s => s
  | j + 1, s =>
    cmd (.dilv j) { recoverUnits q r j s with sym := BitVec.ofNat 5 (symbolNat j q.toNat r.toNat) }

/-- A host step that reads. -/
def isRead : PortEvent → Bool
  | .read _ => true
  | .write _ _ => false
  | .reset => false

end Sys2Proof.Spec

open Sys2Proof Sys2Proof.Machine Sys2Proof.Spec

/-! ## Encoding -/

/-- Decoding the word of a well-formed command gives the command back (30_encoding R70 to R74, R77). -/
def Obligations.DecodeOfEncodedCommand : Prop :=
  ∀ i : Instr, i.wellFormed = true → decode (encode i) = .ok i

/-- A word that decodes is the word of the command it decodes to, and that command is well-formed: no word has a second
spelling (30_encoding R74, R75, R76). -/
def Obligations.EncodeOfDecodedWord : Prop :=
  ∀ (w : CmdWord) (i : Instr), decode w = .ok i → encode i = w ∧ i.wellFormed = true

/-- 30_encoding R74: a word decodes exactly to the command its opcode and operand name, if RSV is 0, and a word that is not
accepted raises IllegalCommand when it is issued and has no other effect. -/
def Obligations.DecodingFollowsTheOpcodeMap : Prop :=
  (∀ (w : CmdWord) (i : Instr),
    decode w = .ok i ↔ w.toNat / 16 % 16 = 0 ∧ commandNamed (w.toNat % 16) (w.toNat / 256) = some i) ∧
  (∀ s : State, (∀ i, decode s.cmd ≠ .ok i) → issue s = .next (failed s 4 0))

/-- Words written out from the spec (30_encoding R70, R73; 95_test_vectors 2.1) decode to what they stand for. -/
def Obligations.SpecWordsDecode : Prop :=
  decode 0x0000#16 = .ok .nop ∧ decode 0x0001#16 = .ok .norm ∧ decode 0x1104#16 = .ok (.ilv 17) ∧
  decode 0x0505#16 = .ok (.dilv 5) ∧ decode 0x0007#16 = .ok .unmap ∧ decode 0x1209#16 = .ok (.center 18) ∧
  decode 0xFF0B#16 = .ok (.encode 255) ∧ decode 0x000C#16 = .ok .decode ∧
  decode 0x010C#16 = .error .operandNotZero ∧ decode 0x00F4#16 = .error .reservedField ∧
  decode 0xFF0F#16 = .error .reservedOpcode

/-! ## The port and the step -/

/-- 10_state R22: a step whose next access is a write to CMD latches the low 16 bits and runs the command they decode to, from
the state with that access taken, as one transition; CMD reads zero and its reset value is zero. That accesses wait in `port`
is the model's way to say what the host writes next, log entry 1. -/
def Obligations.StepRunsIssuedCommand : Prop :=
  (∀ (s : State) (d : PortWord) (rest : List PortEvent) (i : Instr),
    s.port = .write 0x00#6 d :: rest → decode (d.setWidth 16) = .ok i →
    step s = exec i { s with port := rest, cmd := d.setWidth 16 }) ∧
  (∀ s : State, hostRead s 0x00#6 = 0) ∧ State.reset.cmd = 0

/-- 60_exceptions sections 1 and 2: a step that issues a word that spells no command raises IllegalCommand and nothing else.
That CMD holds the new word after the error is the model's reading, log entry 7; the list of accesses is the model's, log
entry 1. -/
def Obligations.StepOfIllegalWord : Prop :=
  ∀ (s : State) (d : PortWord) (rest : List PortEvent),
    s.port = .write 0x00#6 d :: rest → spellsNoCommand (d.setWidth 16) →
    step s = .next (failed { s with port := rest, cmd := d.setWidth 16 } 4 0)

/-- 20_memory R53: a host write to an RW register stores the bits that fit and drops the rest, a write to CMD issues the low
16 bits, and a write to a read-only register or a reserved index changes nothing; no host write other than a command
changes STATUS, CMD, or what any other index reads. -/
def Obligations.HostWriteStoresLowBits : Prop :=
  ∀ (s : State) (idx : RegIndex) (d : PortWord) (rest : List PortEvent), s.port = .write idx d :: rest →
    (idx = 0x00#6 → step s = issue { s with port := rest, cmd := d.setWidth 16 }) ∧
    (idx ≠ 0x00#6 → ∃ t, step s = .next t ∧ t.port = rest ∧ t.reads = s.reads ∧ t.cmd = s.cmd ∧ t.status = s.status ∧
      (writableWidth idx.toNat ≠ 0 → registerValue t idx.toNat = d.toNat % 2 ^ writableWidth idx.toNat) ∧
      (writableWidth idx.toNat = 0 → t = { s with port := rest }) ∧
      (∀ n < 64, n ≠ idx.toNat → registerValue t n = registerValue s n))

/-- 20_memory R52: a host read returns the register's value zero-extended, zero for CMD and reserved indices, and has no side
effect on any register; that the value joins `reads` is the model's choice, log entry 2. -/
def Obligations.HostReadHasNoSideEffect : Prop :=
  ∀ (s : State) (idx : RegIndex) (rest : List PortEvent), s.port = .read idx :: rest →
    step s = .next { s with
      port := rest
      reads := s.reads ++ [BitVec.ofNat 64 (registerValue s idx.toNat)] }

/-- 20_memory R51: a reserved index has no register, reads zero (into the model's `reads`, log entry 2), and no side effect on
read or write. -/
def Obligations.ReservedIndicesAreInert : Prop :=
  ∀ (s : State) (idx : RegIndex) (d : PortWord) (rest : List PortEvent), reservedIndex idx.toNat →
    regAt idx = none ∧
    (s.port = .write idx d :: rest → step s = .next { s with port := rest }) ∧
    (s.port = .read idx :: rest → step s = .next { s with port := rest, reads := s.reads ++ [0] })

/-- The names and indices of 10_state R21 are one to one: an index names a register exactly if it is that register's own,
and every index that names none is reserved. -/
def Obligations.RegisterMapIsOneToOne : Prop :=
  (∀ (idx : RegIndex) (r : Reg), regAt idx = some r ↔ indexOf r = idx) ∧
  (∀ idx : RegIndex, regAt idx = none ↔ reservedIndex idx.toNat)

/-- 70_reset R230: the reset event puts every register in its reset value. That what is pending on the port and what reads have
returned stays is the model's choice, log entry 8. -/
def Obligations.ResetEventRestoresResetValues : Prop :=
  ∀ (s : State) (rest : List PortEvent), s.port = .reset :: rest →
    step s = .next { State.reset with port := rest, reads := s.reads }

/-- 10_state R35: after reset STATUS is 0, CONFIG its constant, and every other register, read through its index, is 0; ROM
holds its contents. -/
def Obligations.ResetValues : Prop :=
  State.reset.status = 0 ∧ State.reset.cmd = 0 ∧ hostRead State.reset 0x02#6 = 0x00201238#64 ∧
  (∀ n < 64, n ≠ 0x02 → registerValue State.reset n = 0) ∧ (∀ i : Symbol, rom i = charOf i.toNat)

/-- 70_reset R236: no command can hang or stop. For every state, a step answers a next state, and it takes the oldest pending
access (of the model's list, log entry 1) and no other. That a step with no access pending answers next is log entry 3, and
that the accesses after a reset event stay pending is log entry 8: both are the model's choice. -/
def Obligations.StepAlwaysCompletes : Prop :=
  ∀ s : State, ∃ t, step s = .next t ∧ t.port = s.port.tail

/-- 70_reset R238: a run with as many steps as there are pending accesses accepts them all and ends with none in flight, and
each host read among them has returned one value. The two lists are the model's, log entries 1 and 2; that pending accesses
and values read survive a reset event is the model's choice, log entry 8. -/
def Obligations.RunAcceptsEveryAccess : Prop :=
  ∀ s : State, ∃ t : State, Sys2Proof.core.run s.port.length s = .next t ∧ t.port = [] ∧
    t.reads.length = s.reads.length + (s.port.filter isRead).length

/-- 20_memory R57: accesses take effect in the order the port accepts them: what is accepted later has no effect on an
earlier step, neither on a register nor on a value read. The list of accesses is the model's, log entry 1; that what is
pending stays pending across a reset event is the model's choice, log entry 8. -/
def Obligations.LaterAccessesHaveNoEffect : Prop :=
  ∀ (n : Nat) (s : State) (later : List PortEvent) (t : State), n ≤ s.port.length →
    Sys2Proof.core.run n s = .next t →
    Sys2Proof.core.run n { s with port := s.port ++ later } = .next { t with port := t.port ++ later }

/-- The model's choice, log entry 3 (70_reset R231: the block is idle): with no access pending a step keeps the state. -/
def Obligations.IdleBlockKeepsItsState : Prop :=
  ∀ s : State, s.port = [] → step s = .next s

/-! ## STATUS and errors -/

/-- 10_state R23 to R26: every step keeps STATUS good: bits 7:5 zero, ERR at most 4, STICKY set whenever ERR is not OK, EPOS
zero unless ERR is InvalidSymbol and then at most 17. -/
def Obligations.StepKeepsStatusGood : Prop :=
  ∀ s t : State, StatusInv s → step s = .next t → StatusInv t

/-- STATUS is good after reset (10_state R35). -/
def Obligations.ResetStatusIsGood : Prop := StatusInv State.reset

/-- 10_state R25: STICKY is set by every command that raises an error, left by every command that completes, and cleared by
nothing but reset. -/
def Obligations.StickyIsClearedOnlyByReset : Prop :=
  (∀ s t : State, issue s = .next t → errOf t.status ≠ 0 → stickyOf t.status = true) ∧
  (∀ s t : State, issue s = .next t → errOf t.status = 0 → stickyOf t.status = stickyOf s.status) ∧
  (∀ s t : State, step s = .next t → s.port.head? ≠ some .reset → stickyOf s.status = true → stickyOf t.status = true) ∧
  (∀ s t : State, step s = .next t → s.port.head? = some .reset → stickyOf t.status = false)

/-- 60_exceptions R204: an error is precise: the state is the state before the command but for STATUS, and STICKY is set. -/
def Obligations.ErrorsArePrecise : Prop :=
  (∀ (i : Instr) (s t : State), exec i s = .next t → errOf t.status ≠ 0 →
    t = failed s (errOf t.status) (eposOf t.status)) ∧
  (∀ s t : State, issue s = .next t → errOf t.status ≠ 0 → t = failed s (errOf t.status) (eposOf t.status))

/-- 10_state R26: every command writes EPOS: a DECODE that raises InvalidSymbol writes the position of the lowest slot of the
code whose byte is not in the alphabet, and every other command and outcome writes 0. -/
def Obligations.EposIsTheFirstInvalidPosition : Prop :=
  (∀ (i : Instr) (s t : State), exec i s = .next t →
    (¬ (i = .decode ∧ errOf t.status = 1) → eposOf t.status = 0) ∧
    (i = .decode → errOf t.status = 1 →
      (eposOf t.status).toNat ≤ 17 ∧ (eposOf t.status).toNat < s.codeLen.toNat ∧
      ¬ inAlphabet (slot s.code (eposOf t.status).toNat) ∧
      ∀ k < (eposOf t.status).toNat, inAlphabet (slot s.code k))) ∧
  (∀ s t : State, issue s = .next t → spellsNoCommand s.cmd → eposOf t.status = 0)

/-- 60_exceptions R200, R205: which commands raise which error, when, with which position, and in which order of precedence,
for every command word. -/
def Obligations.ErrorCauses : Prop :=
  ∀ s t : State, issue s = .next t →
    (errOf t.status = 1 ↔ (decode s.cmd = .ok .unmap ∧ ¬ inAlphabet s.char) ∨
      (decode s.cmd = .ok .decode ∧ s.codeLen.toNat ≤ 18 ∧ ∃ j < s.codeLen.toNat, ¬ inAlphabet (slot s.code j))) ∧
    (errOf t.status = 2 ↔ (decode s.cmd = .ok .decode ∧ 18 < s.codeLen.toNat) ∨
      (∃ n, 18 < n ∧ (decode s.cmd = .ok (.encode n) ∨ decode s.cmd = .ok (.half n) ∨ decode s.cmd = .ok (.center n))) ∨
      (∃ n, 17 < n ∧ (decode s.cmd = .ok (.ilv n) ∨ decode s.cmd = .ok (.dilv n)))) ∧
    (errOf t.status = 3 ↔ (isNaN s.latIn = true ∨ isNaN s.lonIn = true) ∧
      (decode s.cmd = .ok .norm ∨ ∃ n ≤ 18, decode s.cmd = .ok (.encode n))) ∧
    (errOf t.status = 4 ↔ spellsNoCommand s.cmd) ∧
    (errOf t.status = 1 → decode s.cmd = .ok .decode →
      ¬ inAlphabet (slot s.code (eposOf t.status).toNat) ∧ ∀ k < (eposOf t.status).toNat, inAlphabet (slot s.code k)) ∧
    (errOf t.status ≠ 1 ∨ decode s.cmd ≠ .ok .decode → eposOf t.status = 0)

/-- 70_reset R238, 10_state R25: with no reset pending, a run that ends with STICKY = 0 from a good STATUS was error-free
throughout, and one that ends with STICKY = 1 from STICKY = 0 had an error after one of its steps. -/
def Obligations.StickyTellsWhetherTheRunHadAnError : Prop :=
  ∀ (n : Nat) (s t : State), StatusInv s → s.noResetPending → Sys2Proof.core.run n s = .next t →
    (stickyOf t.status = false → ErrorFree n s) ∧
    (stickyOf s.status = false → stickyOf t.status = true →
      ∃ k ≤ n, ∃ u : State, Sys2Proof.core.run k s = .next u ∧ errOf u.status ≠ 0)

/-- No command but those named writes a register (10_state R22, R28 to R32; 40_normalizer R105; 43_precision R162, R166;
44_codec R184): LAT_IN, LON_IN and CMD no command; QLAT and QLON only NORM, CLRQ, DILV, CENTER, ENCODE, DECODE; SYM only ILV
and UNMAP; CHAR only MAP; CODE and CODE_LEN only ENCODE; the degrees of the center only DENORM and DECODE; the half-extents in
degrees only HALF and DECODE; the metric results only METERS and DECODE. -/
def Obligations.OnlyTheNamedCommandsWrite : Prop :=
  ∀ (i : Instr) (s t : State), exec i s = .next t →
    t.latIn = s.latIn ∧ t.lonIn = s.lonIn ∧ t.cmd = s.cmd ∧ t.port = s.port ∧ t.reads = s.reads ∧
    (t.qlat ≠ s.qlat ∨ t.qlon ≠ s.qlon →
      i = .norm ∨ i = .clrq ∨ i = .decode ∨ ∃ n, i = .dilv n ∨ i = .center n ∨ i = .encode n) ∧
    (t.sym ≠ s.sym → i = .unmap ∨ ∃ n, i = .ilv n) ∧
    (t.char ≠ s.char → i = .map) ∧
    (t.code ≠ s.code ∨ t.codeLen ≠ s.codeLen → ∃ n, i = .encode n) ∧
    (t.ctrLat ≠ s.ctrLat ∨ t.ctrLon ≠ s.ctrLon → i = .denorm ∨ i = .decode) ∧
    (t.hlatDeg ≠ s.hlatDeg ∨ t.hlonDeg ≠ s.hlonDeg → i = .decode ∨ ∃ n, i = .half n) ∧
    (t.mpdLat ≠ s.mpdLat ∨ t.mpdLon ≠ s.mpdLon ∨ t.hlatM ≠ s.hlatM ∨ t.hlonM ≠ s.hlonM ∨ t.errM ≠ s.errM →
      i = .meters ∨ i = .decode)

/-! ## Normalizer and Denormalizer -/

/-- 40_normalizer R102, R103: NORM writes QLAT and QLON as the rounded formulas give them, for every input that is not a NaN,
and changes nothing else but STATUS; a NaN raises InvalidCoordinate. -/
def Obligations.NormWritesFixedPoint : Prop :=
  soleWord 0x0001#16 .norm ∧
  ∀ s : State,
    (isNaN s.latIn = true ∨ isNaN s.lonIn = true → exec .norm s = .next (failed s 3 0)) ∧
    (isNaN s.latIn = false → isNaN s.lonIn = false →
      ∃ q r, LatFixed s.latIn q ∧ LonFixed s.lonIn r ∧
        exec .norm s = .next (done s { s with qlat := BitVec.ofNat 56 q, qlon := BitVec.ofNat 56 r }))

/-- 40_normalizer R101, R103: out-of-range degrees are clamped, with no error: latitudes from 90 up to 0 and from −90 down to
2^56 − 1, longitudes from −180 down to 0 and from 180 up to 2^56 − 1, the infinities included. -/
def Obligations.OutOfRangeDegreesAreClamped : Prop :=
  ∀ s : State, isNaN s.latIn = false → isNaN s.lonIn = false →
    ∃ t, exec .norm s = .next t ∧ errOf t.status = 0 ∧
      (LeF 0x4056800000000000#64 s.latIn → t.qlat.toNat = 0) ∧
      (LeF s.latIn 0xC056800000000000#64 → t.qlat.toNat = 2 ^ 56 - 1) ∧
      (LeF s.lonIn 0xC066800000000000#64 → t.qlon.toNat = 0) ∧
      (LeF 0x4066800000000000#64 s.lonIn → t.qlon.toNat = 2 ^ 56 - 1)

/-- 40_normalizer R104, R105: DENORM writes CTR_LAT and CTR_LON as the rounded formulas give them, and nothing else but
STATUS. -/
def Obligations.DenormWritesDegrees : Prop :=
  soleWord 0x0002#16 .denorm ∧
  ∀ s : State, ∃ x y, LatDegrees s.qlat.toNat x ∧ LonDegrees s.qlon.toNat y ∧
    exec .denorm s = .next (done s { s with ctrLat := x, ctrLon := y })

/-- 40_normalizer R106: after DENORM the center lies in [−90, 90] × [−180, 180] and is no NaN. -/
def Obligations.DenormStaysInRange : Prop :=
  ∀ s : State, ∃ t, exec .denorm s = .next t ∧ isFinite t.ctrLat = true ∧ isFinite t.ctrLon = true ∧
    -90 ≤ fVal t.ctrLat ∧ fVal t.ctrLat ≤ 90 ∧ -180 ≤ fVal t.ctrLon ∧ fVal t.ctrLon ≤ 180

/-- 40_normalizer R108: NORM is non-increasing in latitude and non-decreasing in longitude over all inputs that are not NaN,
DENORM non-increasing in QLAT and non-decreasing in QLON. -/
def Obligations.NormalizationIsMonotone : Prop :=
  (∀ s s' t t' : State, isNaN s.latIn = false → isNaN s.lonIn = false → isNaN s'.latIn = false → isNaN s'.lonIn = false →
    exec .norm s = .next t → exec .norm s' = .next t' →
    (LeF s.latIn s'.latIn → t'.qlat.toNat ≤ t.qlat.toNat) ∧ (LeF s.lonIn s'.lonIn → t.qlon.toNat ≤ t'.qlon.toNat)) ∧
  (∀ s s' t t' : State, exec .denorm s = .next t → exec .denorm s' = .next t' →
    (s.qlat.toNat ≤ s'.qlat.toNat → LeF t'.ctrLat t.ctrLat) ∧ (s.qlon.toNat ≤ s'.qlon.toNat → LeF t.ctrLon t'.ctrLon))

/-- 40_normalizer R107: for every coordinate in range, NORM then DENORM returns it within 1e-9 on each axis. -/
def Obligations.NormDenormRoundTrip : Prop :=
  ∀ s : State, isFinite s.latIn = true → isFinite s.lonIn = true → |fVal s.latIn| ≤ 90 → |fVal s.lonIn| ≤ 180 →
    ∃ t u, exec .norm s = .next t ∧ exec .denorm t = .next u ∧
      |fVal u.ctrLat - fVal s.latIn| ≤ 1 / 10 ^ 9 ∧ |fVal u.ctrLon - fVal s.lonIn| ≤ 1 / 10 ^ 9

/-! ## Interleaver -/

/-- 41_interleaver R124: CLRQ clears QLAT and QLON and nothing else but STATUS. -/
def Obligations.ClrqClearsTheAccumulators : Prop :=
  soleWord 0x0003#16 .clrq ∧ ∀ s : State, exec .clrq s = .next (done s { s with qlat := 0, qlon := 0 })

/-- 41_interleaver R121, R123, R125, R126: ILV j writes to SYM the two fields of position j, bit by bit, and nothing else but
STATUS; a position above 17 raises CodeTooLong. -/
def Obligations.IlvBuildsTheSymbol : Prop :=
  operandWords 0x4 .ilv ∧
  ∀ (s : State) (j : Nat),
    (17 < j → exec (.ilv j) s = .next (failed s 2 0)) ∧
    (j ≤ 17 →
      exec (.ilv j) s = .next (done s { s with sym := BitVec.ofNat 5 (symbolNat j s.qlat.toNat s.qlon.toNat) }))

/-- 41_interleaver R128, R125: DILV j ORs the fields of SYM into QLAT and QLON at the shifts of position j, and changes nothing
else but STATUS; a position above 17 raises CodeTooLong. -/
def Obligations.DilvOrsTheFields : Prop :=
  operandWords 0x5 .dilv ∧
  ∀ (s : State) (j : Nat),
    (17 < j → exec (.dilv j) s = .next (failed s 2 0)) ∧
    (j ≤ 17 → exec (.dilv j) s = .next (done s { s with
      qlat := s.qlat ||| BitVec.ofNat 56 (latPart j s.sym.toNat * 2 ^ latShift j)
      qlon := s.qlon ||| BitVec.ofNat 56 (lonPart j s.sym.toNat * 2 ^ lonShift j) }))

/-- 41_interleaver R122: bits 10:0 of QLAT and QLON belong to no position: two states that agree on the bits above give the
same symbol at every position. -/
def Obligations.LowBitsAreNeverRead : Prop :=
  ∀ (s s' : State) (j : Nat), j ≤ 17 → s.qlat >>> 11 = s'.qlat >>> 11 → s.qlon >>> 11 = s'.qlon >>> 11 →
    ∃ t t', exec (.ilv j) s = .next t ∧ exec (.ilv j) s' = .next t' ∧ t.sym = t'.sym

/-- 41_interleaver R130: unpacking inverts packing on all 32 pairs of fields, and packing reaches every symbol. -/
def Obligations.PackIsABijection : Prop :=
  (∀ (t : BitVec 3) (w : BitVec 2), unpackT (pack t w) = t ∧ unpackW (pack t w) = w ∧
    (pack t w).toNat = spread t.toNat w.toNat) ∧
  (∀ sym : Symbol, pack (unpackT sym) (unpackW sym) = sym)

/-- 41_interleaver R129: from zero accumulators, DILV 0 to L − 1 of the symbols of (q, r) leaves the lower corner: the top
latbits(L) and lonbits(L) bits of q and r, and zero below. -/
def Obligations.DilvRecoversTheLowerCorner : Prop :=
  ∀ (q r : Fixed) (l : Nat) (s : State), l ≤ 18 → s.qlat = 0 → s.qlon = 0 →
    (recoverUnits q r l s).qlat = topBits (latbits l) q ∧ (recoverUnits q r l s).qlon = topBits (lonbits l) r

/-! ## Alphabet -/

/-- 42_alphabet R140, R142: MAP writes ROM[SYM] to CHAR and nothing else but STATUS. -/
def Obligations.MapWritesTheCharacter : Prop :=
  soleWord 0x0006#16 .map ∧ ∀ s : State, exec .map s = .next (done s { s with char := charOf s.sym.toNat })

/-- 42_alphabet R141, R144: UNMAP writes to SYM the index of CHAR, and where CHAR is not in the alphabet raises InvalidSymbol
with no other effect. -/
def Obligations.UnmapFindsTheSymbol : Prop :=
  soleWord 0x0007#16 .unmap ∧
  ∀ s : State,
    (∀ i < 32, s.char = charOf i → exec .unmap s = .next (done s { s with sym := BitVec.ofNat 5 i })) ∧
    (¬ inAlphabet s.char → exec .unmap s = .next (failed s 1 0))

/-- 42_alphabet R145: MAP then UNMAP returns SYM; for a byte of the alphabet UNMAP then MAP returns CHAR; for every other byte
UNMAP raises InvalidSymbol. -/
def Obligations.AlphabetIsClosed : Prop :=
  ∀ s : State,
    (∃ t u, exec .map s = .next t ∧ exec .unmap t = .next u ∧ u.sym = s.sym) ∧
    (inAlphabet s.char → ∃ t u, exec .unmap s = .next t ∧ exec .map t = .next u ∧ u.char = s.char) ∧
    (¬ inAlphabet s.char → ∃ t, exec .unmap s = .next t ∧ errOf t.status = 1)

/-- 42_alphabet R143: every character MAP or ENCODE writes is one of the 32 bytes of the alphabet. -/
def Obligations.WrittenCharactersAreInTheAlphabet : Prop :=
  (∀ s : State, ∃ t, exec .map s = .next t ∧ inAlphabet t.char) ∧
  (∀ (s t : State) (l : Nat), exec (.encode l) s = .next t → errOf t.status = 0 →
    ∀ j < l, inAlphabet (slot t.code j))

/-! ## Precision -/

/-- 43_precision R160, R161, R162: HALF L writes the exact half-extents 90·2^−latbits(L) and 180·2^−lonbits(L), and nothing
else but STATUS; a length above 18 raises CodeTooLong. -/
def Obligations.HalfWritesExactHalfExtents : Prop :=
  operandWords 0x8 .half ∧
  ∀ (s : State) (l : Nat),
    (18 < l → exec (.half l) s = .next (failed s 2 0)) ∧
    (l ≤ 18 → ∃ x y : F64, isFinite x = true ∧ isFinite y = true ∧
      fVal x = 90 / 2 ^ latbits l ∧ fVal y = 180 / 2 ^ lonbits l ∧
      exec (.half l) s = .next (done s { s with hlatDeg := x, hlonDeg := y }))

/-- 43_precision R164: CENTER L adds the half-cells 2^(55 − bits) to QLAT and QLON modulo 2^56, and changes nothing else but
STATUS; a length above 18 raises CodeTooLong. -/
def Obligations.CenterAddsTheHalfCell : Prop :=
  operandWords 0x9 .center ∧
  ∀ (s : State) (l : Nat),
    (18 < l → exec (.center l) s = .next (failed s 2 0)) ∧
    (l ≤ 18 → exec (.center l) s = .next (done s { s with
      qlat := BitVec.ofNat 56 ((s.qlat.toNat + 2 ^ (55 - latbits l)) % 2 ^ 56)
      qlon := BitVec.ofNat 56 ((s.qlon.toNat + 2 ^ (55 - lonbits l)) % 2 ^ 56) }))

/-- 43_precision R167: each further character strictly shrinks both half-extents. -/
def Obligations.PrecisionStrictlyImproves : Prop :=
  ∀ (s : State) (l l' : Nat), l < l' → l' ≤ 18 →
    ∃ t t', exec (.half l) s = .next t ∧ exec (.half l') s = .next t' ∧
      fVal t'.hlatDeg < fVal t.hlatDeg ∧ fVal t'.hlonDeg < fVal t.hlonDeg

/-- 43_precision R165, R166: METERS evaluates the metric formulas at CTR_LAT in the written order, with the free COS64 and
HYPOT64 (log entries 4 and 5), and writes five registers and STATUS, nothing else. -/
def Obligations.MetersEvaluatesTheFormulas : Prop :=
  soleWord 0x000A#16 .meters ∧
  ∀ s : State, exec .meters s = .next (done s { s with
    mpdLat := mpdLatOf s.ctrLat
    mpdLon := mpdLonOf s.ctrLat
    hlatM := fmul s.hlatDeg (mpdLatOf s.ctrLat)
    hlonM := fmul s.hlonDeg (mpdLonOf s.ctrLat)
    errM := hypot64 (fmul s.hlatDeg (mpdLatOf s.ctrLat)) (fmul s.hlonDeg (mpdLonOf s.ctrLat)) })

/-- 43_precision R166, corner cases: a NaN or infinite CTR_LAT raises nothing and gives the canonical NaN in all five metric
registers, whatever COS64 and HYPOT64 are (within the limits of log entries 4 and 5). -/
def Obligations.NonFiniteLatitudeGivesNanMetrics : Prop :=
  ∀ s : State, isFinite s.ctrLat = false →
    ∃ t, exec .meters s = .next t ∧ errOf t.status = 0 ∧ t.mpdLat = 0x7FF8000000000000#64 ∧
      t.mpdLon = 0x7FF8000000000000#64 ∧ t.hlatM = 0x7FF8000000000000#64 ∧ t.hlonM = 0x7FF8000000000000#64 ∧
      t.errM = 0x7FF8000000000000#64

/-- 43_precision R166 and 00_scope R11: after METERS the error radius is not below zero, a NaN in it is the canonical one, and
it is no NaN when both metric half-extents are finite (the limit on the free HYPOT64, log entry 5). -/
def Obligations.ErrorRadiusIsNotNegative : Prop :=
  ∀ s : State, ∃ t, exec .meters s = .next t ∧
    (fSign t.errM = true → isZero t.errM = true) ∧ (isNaN t.errM = true → t.errM = 0x7FF8000000000000#64) ∧
    (isFinite t.hlatM = true → isFinite t.hlonM = true → isNaN t.errM = false)

/-! ## ENCODE and DECODE -/

/-- 44_codec R180: NOP returns ERR and EPOS to 0 and changes nothing else. -/
def Obligations.NopOnlyCompletes : Prop :=
  soleWord 0x0000#16 .nop ∧ ∀ s : State, exec .nop s = .next (done s s)

/-- 44_codec R181, R182: ENCODE L writes the first L characters of the code of the normalized coordinate, CODE_LEN, QLAT and
QLON; the slots from L on, and every other register but STATUS, keep their contents; a length above 18 raises CodeTooLong,
else a NaN InvalidCoordinate. -/
def Obligations.EncodeWritesTheCode : Prop :=
  operandWords 0xB .encode ∧
  ∀ (s : State) (l : Nat),
    (18 < l → exec (.encode l) s = .next (failed s 2 0)) ∧
    (l ≤ 18 → isNaN s.latIn = true ∨ isNaN s.lonIn = true → exec (.encode l) s = .next (failed s 3 0)) ∧
    (l ≤ 18 → isNaN s.latIn = false → isNaN s.lonIn = false →
      ∃ t q r, exec (.encode l) s = .next t ∧ LatFixed s.latIn q ∧ LonFixed s.lonIn r ∧
        (∀ j < l, slot t.code j = charOf (symbolNat j q r)) ∧ (∀ j, l ≤ j → slot t.code j = slot s.code j) ∧
        t = done s { s with
          code := t.code
          codeLen := BitVec.ofNat 8 l
          qlat := BitVec.ofNat 56 q
          qlon := BitVec.ofNat 56 r })

/-- 44_codec R182, corner cases: the code of length L is the first L characters of the code of length 18. -/
def Obligations.ShorterCodesAreInitialParts : Prop :=
  ∀ (s : State) (l : Nat), l ≤ 18 → isNaN s.latIn = false → isNaN s.lonIn = false →
    ∃ t u, exec (.encode l) s = .next t ∧ exec (.encode 18) s = .next u ∧
      ∀ j < l, slot t.code j = slot u.code j

/-- 44_codec R183: ENCODE L leaves what NORM, then ILV j, MAP and a host copy of CHAR into CODE[j] for each j below L, then a
host write of CODE_LEN leave, but for SYM and CHAR, which it does not touch. -/
def Obligations.EncodeIsTheUnitSequence : Prop :=
  ∀ (s : State) (l : Nat), l ≤ 18 → isNaN s.latIn = false → isNaN s.lonIn = false →
    exec (.encode l) s = .next { wr 0x0A (BitVec.ofNat 64 l) (encodeUnits l (cmd .norm s)) with
      sym := s.sym
      char := s.char }

/-- 44_codec R184: DECODE of a code in the alphabet writes the center of its cell, in fixed-point units and in degrees, its
half-extents, and the metric results at that center, and nothing else but STATUS; a length above 18 raises CodeTooLong, else
the first byte that is not in the alphabet InvalidSymbol with its position. -/
def Obligations.DecodeWritesTheEstimate : Prop :=
  soleWord 0x000C#16 .decode ∧
  (∀ s : State, 18 < s.codeLen.toNat → exec .decode s = .next (failed s 2 0)) ∧
  (∀ (s : State) (j : Nat), s.codeLen.toNat ≤ 18 → j < s.codeLen.toNat → ¬ inAlphabet (slot s.code j) →
    (∀ k < j, inAlphabet (slot s.code k)) → exec .decode s = .next (failed s 1 (BitVec.ofNat 8 j))) ∧
  ∀ (s : State) (l : Nat) (f : Nat → Nat), s.codeLen.toNat = l → l ≤ 18 →
    (∀ j < l, f j < 32 ∧ slot s.code j = charOf (f j)) →
    ∃ (q r : Nat) (x y h g : F64),
      q = (∑ j ∈ Finset.range l, latPart j (f j) * 2 ^ latShift j) + 2 ^ (55 - latbits l) ∧
      r = (∑ j ∈ Finset.range l, lonPart j (f j) * 2 ^ lonShift j) + 2 ^ (55 - lonbits l) ∧
      q < 2 ^ 56 ∧ r < 2 ^ 56 ∧ LatDegrees q x ∧ LonDegrees r y ∧
      isFinite h = true ∧ isFinite g = true ∧ fVal h = 90 / 2 ^ latbits l ∧ fVal g = 180 / 2 ^ lonbits l ∧
      exec .decode s = .next (done s { s with
        qlat := BitVec.ofNat 56 q
        qlon := BitVec.ofNat 56 r
        ctrLat := x
        ctrLon := y
        hlatDeg := h
        hlonDeg := g
        mpdLat := mpdLatOf x
        mpdLon := mpdLonOf x
        hlatM := fmul h (mpdLatOf x)
        hlonM := fmul g (mpdLonOf x)
        errM := hypot64 (fmul h (mpdLatOf x)) (fmul g (mpdLonOf x)) })

/-- 44_codec R185: DECODE leaves what CLRQ, then a host copy of CODE[j] into CHAR, UNMAP and DILV j for each j below L, then
CENTER L, DENORM, HALF L and METERS leave, but for SYM and CHAR, which it does not touch. -/
def Obligations.DecodeIsTheUnitSequence : Prop :=
  ∀ s : State, s.codeLen.toNat ≤ 18 → (∀ j < s.codeLen.toNat, inAlphabet (slot s.code j)) →
    exec .decode s = .next { cmd .meters (cmd (.half s.codeLen.toNat) (cmd .denorm (cmd (.center s.codeLen.toNat)
        (decodeUnits s.codeLen.toNat (cmd .clrq s))))) with
      sym := s.sym
      char := s.char }

/-- 44_codec R184, corner cases: slots at or beyond CODE_LEN are not read: a stale or invalid byte there has no effect. -/
def Obligations.DecodeIgnoresSlotsBeyondTheLength : Prop :=
  ∀ (s t : State) (code' : CodeBuffer), (∀ j < s.codeLen.toNat, slot code' j = slot s.code j) →
    exec .decode s = .next t → exec .decode { s with code := code' } = .next { t with code := code' }

/-- 44_codec R186: ENCODE L then DECODE leaves in QLAT and QLON the center of the cell of what ENCODE left there, and in
CTR_LAT and CTR_LON its degrees. -/
def Obligations.EncodeDecodeRoundTrip : Prop :=
  ∀ (s : State) (l : Nat), l ≤ 18 → isNaN s.latIn = false → isNaN s.lonIn = false →
    ∃ t u, exec (.encode l) s = .next t ∧ exec .decode t = .next u ∧ errOf u.status = 0 ∧
      u.qlat = topBits (latbits l) t.qlat + BitVec.ofNat 56 (2 ^ (55 - latbits l)) ∧
      u.qlon = topBits (lonbits l) t.qlon + BitVec.ofNat 56 (2 ^ (55 - lonbits l)) ∧
      LatDegrees u.qlat.toNat u.ctrLat ∧ LonDegrees u.qlon.toNat u.ctrLon

/-- 43_precision R168, with a slack of 1e-12 degrees (log entry 12) for the rounding the rule allows for: the decoded center of a coordinate
in range is no further from it than the half-extent, on each axis. -/
def Obligations.CellContainsTheCoordinate : Prop :=
  ∀ (s : State) (l : Nat), 1 ≤ l → l ≤ 18 → isFinite s.latIn = true → isFinite s.lonIn = true →
    |fVal s.latIn| ≤ 90 → |fVal s.lonIn| ≤ 180 →
    ∃ t u, exec (.encode l) s = .next t ∧ exec .decode t = .next u ∧
      |fVal u.ctrLat - fVal s.latIn| ≤ fVal u.hlatDeg + 1 / 10 ^ 12 ∧
      |fVal u.ctrLon - fVal s.lonIn| ≤ fVal u.hlonDeg + 1 / 10 ^ 12

/-! ## Binary64 arithmetic (00_scope R11) -/

/-- Addition and subtraction are IEEE 754 binary64 to nearest, ties to even; an exact zero sum is +0.0 unless both operands are
negative zeros (or their equals); every NaN result is the canonical one. -/
def Obligations.AdditionIsIeee : Prop :=
  ∀ a b : F64,
    (isFinite a = true → isFinite b = true →
      RoundsTo (fVal a + fVal b) (fadd a b) ∧ RoundsTo (fVal a - fVal b) (fsub a b) ∧
      (fVal a + fVal b = 0 → fSign (fadd a b) = (fSign a && fSign b)) ∧
      (fVal a - fVal b = 0 → fSign (fsub a b) = (fSign a && !fSign b))) ∧
    (isNaN a = true ∨ isNaN b = true → fadd a b = 0x7FF8000000000000#64 ∧ fsub a b = 0x7FF8000000000000#64) ∧
    (isInf a = true → isFinite b = true → fadd a b = a ∧ fsub a b = a) ∧
    (isFinite a = true → isInf b = true → fadd a b = b ∧ fsub a b = fInf (!fSign b)) ∧
    (isInf a = true → isInf b = true →
      fadd a b = (if fSign a = fSign b then a else 0x7FF8000000000000#64) ∧
      fsub a b = (if fSign a = fSign b then 0x7FF8000000000000#64 else a))

/-- Multiplication is IEEE 754 binary64 to nearest, ties to even, with the signs' exclusive or; zero times infinity, and
every NaN, gives the canonical NaN. -/
def Obligations.MultiplicationIsIeee : Prop :=
  ∀ a b : F64,
    (isFinite a = true → isFinite b = true →
      RoundsTo (fVal a * fVal b) (fmul a b) ∧ fSign (fmul a b) = (fSign a ^^ fSign b)) ∧
    (isNaN a = true ∨ isNaN b = true → fmul a b = 0x7FF8000000000000#64) ∧
    (isInf a = true → isNaN b = false → fmul a b =
      if isZero b then 0x7FF8000000000000#64 else fInf (fSign a ^^ fSign b)) ∧
    (isNaN a = false → isInf b = true → fmul a b =
      if isZero a then 0x7FF8000000000000#64 else fInf (fSign a ^^ fSign b))

/-- Division is IEEE 754 binary64 to nearest, ties to even, with the signs' exclusive or; 0/0, inf/inf and every NaN give the
canonical NaN, x/0 an infinity, x/inf a zero. -/
def Obligations.DivisionIsIeee : Prop :=
  ∀ a b : F64,
    (isFinite a = true → isFinite b = true → isZero b = false →
      RoundsTo (fVal a / fVal b) (fdiv a b) ∧ fSign (fdiv a b) = (fSign a ^^ fSign b)) ∧
    (isNaN a = true ∨ isNaN b = true → fdiv a b = 0x7FF8000000000000#64) ∧
    (isInf a = true → isInf b = true → fdiv a b = 0x7FF8000000000000#64) ∧
    (isInf a = true → isFinite b = true → fdiv a b = fInf (fSign a ^^ fSign b)) ∧
    (isFinite a = true → isInf b = true → fdiv a b = fZero (fSign a ^^ fSign b)) ∧
    (isFinite a = true → isZero b = true → fdiv a b =
      if isZero a then 0x7FF8000000000000#64 else fInf (fSign a ^^ fSign b))

/-- `toF64` rounds an integer below 2^64 to nearest, ties to even, and never gives a negative pattern. -/
def Obligations.IntegerConversionIsRounded : Prop :=
  ∀ n : Nat, n < 2 ^ 64 → RoundsTo (n : ℚ) (toF64 n) ∧ fSign (toF64 n) = false ∧ isFinite (toF64 n) = true

/-! ## The assembler -/

/-- 30_encoding R79: `WRC s` of at most 18 bytes writes the bytes to the first slots and their number to CODE_LEN, and nothing
else; of more it is an assembly error. -/
def Obligations.WrcWritesTheCodeBuffer : Prop :=
  ∀ bytes : List CharByte,
    (18 < bytes.length → assemble (.wrc bytes) = .error .codeTooLong) ∧
    (bytes.length ≤ 18 → ∃ es, assemble (.wrc bytes) = .ok es ∧ es.length = bytes.length + 1 ∧
      ∀ s : State, s.port = es → ∃ t : State, Sys2Proof.core.run es.length s = .next t ∧
        (∀ j, (h : j < bytes.length) → slot t.code j = bytes[j]) ∧
        (∀ j, bytes.length ≤ j → slot t.code j = slot s.code j) ∧
        t = { s with port := [], code := t.code, codeLen := BitVec.ofNat 8 bytes.length })
end

