-- ==== Sys2Proof/Laws/Decode.lean ====
section
/-! SUPPORT. The fields of an encoded word (30_encoding R70). -/

namespace Sys2Proof

theorem opField_cmdWord (n : Nat) (op : BitVec 4) : opField (cmdWord n op) = op := by
  unfold cmdWord
  generalize BitVec.ofNat 8 n = m
  revert m op; decide +kernel

theorem rsvField_cmdWord (n : Nat) (op : BitVec 4) : rsvField (cmdWord n op) = 0 := by
  unfold cmdWord
  generalize BitVec.ofNat 8 n = m
  revert m op; decide +kernel

theorem nField_cmdWord (n : Nat) (op : BitVec 4) : nField (cmdWord n op) = BitVec.ofNat 8 n := by
  unfold cmdWord
  generalize BitVec.ofNat 8 n = m
  revert m op; decide +kernel

theorem toNat_fields (n : BitVec 8) (r op : BitVec 4) :
    (n ++ r ++ op : CmdWord).toNat = n.toNat * 256 + r.toNat * 16 + op.toNat := by
  have h1 : (n ++ r ++ op : CmdWord).toNat = (n ++ r).toNat <<< 4 ||| op.toNat := BitVec.toNat_append (n ++ r) op
  have h2 : (n ++ r).toNat = n.toNat <<< 4 ||| r.toNat := BitVec.toNat_append n r
  rw [h1, h2, ← Nat.shiftLeft_add_eq_or_of_lt r.isLt, ← Nat.shiftLeft_add_eq_or_of_lt op.isLt]
  simp only [Nat.shiftLeft_eq]
  ring

/-- A word is its three fields. -/
theorem fields_append (w : CmdWord) : nField w ++ rsvField w ++ opField w = w := by
  apply BitVec.eq_of_toNat_eq
  have := w.isLt
  rw [toNat_fields]
  simp only [nField, rsvField, opField, BitVec.extractLsb'_toNat, Nat.shiftRight_eq_div_pow]
  omega

end Sys2Proof
end

