-- ==== Sys2Proof/Laws/State.lean ====
section
/-! SUPPORT. One lemma per field per shared update of State, true by rfl. -/

namespace Sys2Proof.Machine

section complete
variable (s : State)

@[simp] theorem complete_cmd : (complete s).cmd = s.cmd := rfl
@[simp] theorem complete_status : (complete s).status = statusCompleted s.status := rfl
@[simp] theorem complete_latIn : (complete s).latIn = s.latIn := rfl
@[simp] theorem complete_lonIn : (complete s).lonIn = s.lonIn := rfl
@[simp] theorem complete_qlat : (complete s).qlat = s.qlat := rfl
@[simp] theorem complete_qlon : (complete s).qlon = s.qlon := rfl
@[simp] theorem complete_sym : (complete s).sym = s.sym := rfl
@[simp] theorem complete_char : (complete s).char = s.char := rfl
@[simp] theorem complete_codeLen : (complete s).codeLen = s.codeLen := rfl
@[simp] theorem complete_ctrLat : (complete s).ctrLat = s.ctrLat := rfl
@[simp] theorem complete_ctrLon : (complete s).ctrLon = s.ctrLon := rfl
@[simp] theorem complete_hlatDeg : (complete s).hlatDeg = s.hlatDeg := rfl
@[simp] theorem complete_hlonDeg : (complete s).hlonDeg = s.hlonDeg := rfl
@[simp] theorem complete_mpdLat : (complete s).mpdLat = s.mpdLat := rfl
@[simp] theorem complete_mpdLon : (complete s).mpdLon = s.mpdLon := rfl
@[simp] theorem complete_hlatM : (complete s).hlatM = s.hlatM := rfl
@[simp] theorem complete_hlonM : (complete s).hlonM = s.hlonM := rfl
@[simp] theorem complete_errM : (complete s).errM = s.errM := rfl
@[simp] theorem complete_code : (complete s).code = s.code := rfl
@[simp] theorem complete_port : (complete s).port = s.port := rfl
@[simp] theorem complete_reads : (complete s).reads = s.reads := rfl

end complete

section raiseErr
variable (s : State) (e : ErrCode) (p : BitVec 8)

@[simp] theorem raiseErr_cmd : (raiseErr e p s).cmd = s.cmd := rfl
@[simp] theorem raiseErr_status : (raiseErr e p s).status = statusRaised e p := rfl
@[simp] theorem raiseErr_latIn : (raiseErr e p s).latIn = s.latIn := rfl
@[simp] theorem raiseErr_lonIn : (raiseErr e p s).lonIn = s.lonIn := rfl
@[simp] theorem raiseErr_qlat : (raiseErr e p s).qlat = s.qlat := rfl
@[simp] theorem raiseErr_qlon : (raiseErr e p s).qlon = s.qlon := rfl
@[simp] theorem raiseErr_sym : (raiseErr e p s).sym = s.sym := rfl
@[simp] theorem raiseErr_char : (raiseErr e p s).char = s.char := rfl
@[simp] theorem raiseErr_codeLen : (raiseErr e p s).codeLen = s.codeLen := rfl
@[simp] theorem raiseErr_ctrLat : (raiseErr e p s).ctrLat = s.ctrLat := rfl
@[simp] theorem raiseErr_ctrLon : (raiseErr e p s).ctrLon = s.ctrLon := rfl
@[simp] theorem raiseErr_hlatDeg : (raiseErr e p s).hlatDeg = s.hlatDeg := rfl
@[simp] theorem raiseErr_hlonDeg : (raiseErr e p s).hlonDeg = s.hlonDeg := rfl
@[simp] theorem raiseErr_mpdLat : (raiseErr e p s).mpdLat = s.mpdLat := rfl
@[simp] theorem raiseErr_mpdLon : (raiseErr e p s).mpdLon = s.mpdLon := rfl
@[simp] theorem raiseErr_hlatM : (raiseErr e p s).hlatM = s.hlatM := rfl
@[simp] theorem raiseErr_hlonM : (raiseErr e p s).hlonM = s.hlonM := rfl
@[simp] theorem raiseErr_errM : (raiseErr e p s).errM = s.errM := rfl
@[simp] theorem raiseErr_code : (raiseErr e p s).code = s.code := rfl
@[simp] theorem raiseErr_port : (raiseErr e p s).port = s.port := rfl
@[simp] theorem raiseErr_reads : (raiseErr e p s).reads = s.reads := rfl

end raiseErr

section withMetrics
variable (s : State) (c : F64 → F64) (h : F64 → F64 → F64) (lat hl ho : F64)

@[simp] theorem withMetrics_cmd : (withMetrics c h lat hl ho s).cmd = s.cmd := rfl
@[simp] theorem withMetrics_status : (withMetrics c h lat hl ho s).status = s.status := rfl
@[simp] theorem withMetrics_latIn : (withMetrics c h lat hl ho s).latIn = s.latIn := rfl
@[simp] theorem withMetrics_lonIn : (withMetrics c h lat hl ho s).lonIn = s.lonIn := rfl
@[simp] theorem withMetrics_qlat : (withMetrics c h lat hl ho s).qlat = s.qlat := rfl
@[simp] theorem withMetrics_qlon : (withMetrics c h lat hl ho s).qlon = s.qlon := rfl
@[simp] theorem withMetrics_sym : (withMetrics c h lat hl ho s).sym = s.sym := rfl
@[simp] theorem withMetrics_char : (withMetrics c h lat hl ho s).char = s.char := rfl
@[simp] theorem withMetrics_codeLen : (withMetrics c h lat hl ho s).codeLen = s.codeLen := rfl
@[simp] theorem withMetrics_ctrLat : (withMetrics c h lat hl ho s).ctrLat = s.ctrLat := rfl
@[simp] theorem withMetrics_ctrLon : (withMetrics c h lat hl ho s).ctrLon = s.ctrLon := rfl
@[simp] theorem withMetrics_hlatDeg : (withMetrics c h lat hl ho s).hlatDeg = s.hlatDeg := rfl
@[simp] theorem withMetrics_hlonDeg : (withMetrics c h lat hl ho s).hlonDeg = s.hlonDeg := rfl
@[simp] theorem withMetrics_mpdLat : (withMetrics c h lat hl ho s).mpdLat = Machine.mpdLat c lat := rfl
@[simp] theorem withMetrics_mpdLon : (withMetrics c h lat hl ho s).mpdLon = Machine.mpdLon c lat := rfl
@[simp] theorem withMetrics_hlatM : (withMetrics c h lat hl ho s).hlatM = fmul hl (Machine.mpdLat c lat) := rfl
@[simp] theorem withMetrics_hlonM : (withMetrics c h lat hl ho s).hlonM = fmul ho (Machine.mpdLon c lat) := rfl
@[simp] theorem withMetrics_errM : (withMetrics c h lat hl ho s).errM = h (fmul hl (Machine.mpdLat c lat)) (fmul ho (Machine.mpdLon c lat)) := rfl
@[simp] theorem withMetrics_code : (withMetrics c h lat hl ho s).code = s.code := rfl
@[simp] theorem withMetrics_port : (withMetrics c h lat hl ho s).port = s.port := rfl
@[simp] theorem withMetrics_reads : (withMetrics c h lat hl ho s).reads = s.reads := rfl

end withMetrics

section withCode
variable (s : State) (l : Nat) (q r : Fixed)

@[simp] theorem withCode_cmd : (withCode l q r s).cmd = s.cmd := rfl
@[simp] theorem withCode_status : (withCode l q r s).status = s.status := rfl
@[simp] theorem withCode_latIn : (withCode l q r s).latIn = s.latIn := rfl
@[simp] theorem withCode_lonIn : (withCode l q r s).lonIn = s.lonIn := rfl
@[simp] theorem withCode_qlat : (withCode l q r s).qlat = q := rfl
@[simp] theorem withCode_qlon : (withCode l q r s).qlon = r := rfl
@[simp] theorem withCode_sym : (withCode l q r s).sym = s.sym := rfl
@[simp] theorem withCode_char : (withCode l q r s).char = s.char := rfl
@[simp] theorem withCode_codeLen : (withCode l q r s).codeLen = BitVec.ofNat 8 l := rfl
@[simp] theorem withCode_ctrLat : (withCode l q r s).ctrLat = s.ctrLat := rfl
@[simp] theorem withCode_ctrLon : (withCode l q r s).ctrLon = s.ctrLon := rfl
@[simp] theorem withCode_hlatDeg : (withCode l q r s).hlatDeg = s.hlatDeg := rfl
@[simp] theorem withCode_hlonDeg : (withCode l q r s).hlonDeg = s.hlonDeg := rfl
@[simp] theorem withCode_mpdLat : (withCode l q r s).mpdLat = s.mpdLat := rfl
@[simp] theorem withCode_mpdLon : (withCode l q r s).mpdLon = s.mpdLon := rfl
@[simp] theorem withCode_hlatM : (withCode l q r s).hlatM = s.hlatM := rfl
@[simp] theorem withCode_hlonM : (withCode l q r s).hlonM = s.hlonM := rfl
@[simp] theorem withCode_errM : (withCode l q r s).errM = s.errM := rfl
@[simp] theorem withCode_code : (withCode l q r s).code = fillSlots (codeChar q r) l s.code := rfl
@[simp] theorem withCode_port : (withCode l q r s).port = s.port := rfl
@[simp] theorem withCode_reads : (withCode l q r s).reads = s.reads := rfl

end withCode

section withEstimate
variable (s : State) (q r : Fixed) (l : Nat)

@[simp] theorem withEstimate_cmd : (withEstimate q r l s).cmd = s.cmd := rfl
@[simp] theorem withEstimate_status : (withEstimate q r l s).status = s.status := rfl
@[simp] theorem withEstimate_latIn : (withEstimate q r l s).latIn = s.latIn := rfl
@[simp] theorem withEstimate_lonIn : (withEstimate q r l s).lonIn = s.lonIn := rfl
@[simp] theorem withEstimate_qlat : (withEstimate q r l s).qlat = q := rfl
@[simp] theorem withEstimate_qlon : (withEstimate q r l s).qlon = r := rfl
@[simp] theorem withEstimate_sym : (withEstimate q r l s).sym = s.sym := rfl
@[simp] theorem withEstimate_char : (withEstimate q r l s).char = s.char := rfl
@[simp] theorem withEstimate_codeLen : (withEstimate q r l s).codeLen = s.codeLen := rfl
@[simp] theorem withEstimate_ctrLat : (withEstimate q r l s).ctrLat = denormLat q := rfl
@[simp] theorem withEstimate_ctrLon : (withEstimate q r l s).ctrLon = denormLon r := rfl
@[simp] theorem withEstimate_hlatDeg : (withEstimate q r l s).hlatDeg = hdegLat l := rfl
@[simp] theorem withEstimate_hlonDeg : (withEstimate q r l s).hlonDeg = hdegLon l := rfl
@[simp] theorem withEstimate_mpdLat : (withEstimate q r l s).mpdLat = Machine.mpdLat cos64 (denormLat q) := rfl
@[simp] theorem withEstimate_mpdLon : (withEstimate q r l s).mpdLon = Machine.mpdLon cos64 (denormLat q) := rfl
@[simp] theorem withEstimate_hlatM : (withEstimate q r l s).hlatM = fmul (hdegLat l) (Machine.mpdLat cos64 (denormLat q)) := rfl
@[simp] theorem withEstimate_hlonM : (withEstimate q r l s).hlonM = fmul (hdegLon l) (Machine.mpdLon cos64 (denormLat q)) := rfl
@[simp] theorem withEstimate_errM : (withEstimate q r l s).errM = hypot64 (fmul (hdegLat l) (Machine.mpdLat cos64 (denormLat q))) (fmul (hdegLon l) (Machine.mpdLon cos64 (denormLat q))) := rfl
@[simp] theorem withEstimate_code : (withEstimate q r l s).code = s.code := rfl
@[simp] theorem withEstimate_port : (withEstimate q r l s).port = s.port := rfl
@[simp] theorem withEstimate_reads : (withEstimate q r l s).reads = s.reads := rfl

end withEstimate

section resetBlock
variable (s : State)

@[simp] theorem resetBlock_cmd : (resetBlock s).cmd = 0 := rfl
@[simp] theorem resetBlock_status : (resetBlock s).status = 0 := rfl
@[simp] theorem resetBlock_latIn : (resetBlock s).latIn = 0 := rfl
@[simp] theorem resetBlock_lonIn : (resetBlock s).lonIn = 0 := rfl
@[simp] theorem resetBlock_qlat : (resetBlock s).qlat = 0 := rfl
@[simp] theorem resetBlock_qlon : (resetBlock s).qlon = 0 := rfl
@[simp] theorem resetBlock_sym : (resetBlock s).sym = 0 := rfl
@[simp] theorem resetBlock_char : (resetBlock s).char = 0 := rfl
@[simp] theorem resetBlock_codeLen : (resetBlock s).codeLen = 0 := rfl
@[simp] theorem resetBlock_ctrLat : (resetBlock s).ctrLat = 0 := rfl
@[simp] theorem resetBlock_ctrLon : (resetBlock s).ctrLon = 0 := rfl
@[simp] theorem resetBlock_hlatDeg : (resetBlock s).hlatDeg = 0 := rfl
@[simp] theorem resetBlock_hlonDeg : (resetBlock s).hlonDeg = 0 := rfl
@[simp] theorem resetBlock_mpdLat : (resetBlock s).mpdLat = 0 := rfl
@[simp] theorem resetBlock_mpdLon : (resetBlock s).mpdLon = 0 := rfl
@[simp] theorem resetBlock_hlatM : (resetBlock s).hlatM = 0 := rfl
@[simp] theorem resetBlock_hlonM : (resetBlock s).hlonM = 0 := rfl
@[simp] theorem resetBlock_errM : (resetBlock s).errM = 0 := rfl
@[simp] theorem resetBlock_code : (resetBlock s).code = Vector.replicate 18 0 := rfl
@[simp] theorem resetBlock_port : (resetBlock s).port = s.port := rfl
@[simp] theorem resetBlock_reads : (resetBlock s).reads = s.reads := rfl

end resetBlock

end Sys2Proof.Machine
end

