-- ==== Sys2Proof/Laws/Ops.lean ====
section
/-! SUPPORT. The code buffer, read after write. -/

namespace Sys2Proof.Machine

theorem slot_of_lt (v : CodeBuffer) {j : Nat} (h : j < 18) : slot v j = v[j] := by
  simp [slot, Vector.getD, h]

theorem slot_of_not_lt (c : CodeBuffer) {j : Nat} (h : ¬ j < 18) : slot c j = 0 := by
  simp [slot, Vector.getD, h]

theorem slot_setSlot (c : CodeBuffer) (i j : Nat) (b : CharByte) :
    slot (setSlot c i b) j = if i = j ∧ i < 18 then b else slot c j := by
  by_cases hj : j < 18
  · rw [slot_of_lt _ hj, slot_of_lt _ hj, setSlot, Vector.getElem_setIfInBounds]
    by_cases hij : i = j <;> simp [hij, hj]
  · rw [slot_of_not_lt _ hj, slot_of_not_lt _ hj, if_neg (by omega)]

/-- ENCODE's loop writes exactly the slots below n (of the 18 there are). -/
theorem slot_fillSlots (f : Nat → CharByte) (n : Nat) (c : CodeBuffer) (j : Nat) :
    slot (fillSlots f n c) j = if j < n ∧ j < 18 then f j else slot c j := by
  induction n with
  | zero => simp [fillSlots]
  | succ n ih =>
    rw [fillSlots, slot_setSlot, ih]
    by_cases hnj : n = j
    · subst hnj; by_cases h : n < 18 <;> simp [h]
    · have : j < n + 1 ↔ j < n := by omega
      simp [hnj, this]

/-- Two code buffers with the same 18 slots are one. -/
theorem code_ext {c d : CodeBuffer} (h : ∀ j < 18, slot c j = slot d j) : c = d := by
  ext1 j hj
  have := h j hj
  rwa [slot_of_lt _ hj, slot_of_lt _ hj] at this

/-- Below LMAX the lowest invalid position is a position (R26). -/
theorem firstInvalid_lt {c : CodeBuffer} {l j : Nat} (h : firstInvalid c l = some j) : j < l := by
  have := List.mem_of_find?_eq_some h
  simpa using this

theorem firstInvalid_spec {c : CodeBuffer} {l j : Nat} (h : firstInvalid c l = some j) :
    indexOfChar (slot c j) = none ∧ ∀ k < j, indexOfChar (slot c k) ≠ none := by
  unfold firstInvalid at h
  rw [List.find?_range_eq_some] at h
  obtain ⟨h1, -, h3⟩ := h
  refine ⟨by simpa using h1, fun k hk hn => ?_⟩
  have := h3 k hk
  simp [hn] at this

theorem firstInvalid_none {c : CodeBuffer} {l : Nat} :
    firstInvalid c l = none ↔ ∀ j < l, indexOfChar (slot c j) ≠ none := by
  simp [firstInvalid, List.find?_eq_none, Option.ne_none_iff_isSome]

end Sys2Proof.Machine
end

