-- ==== Sys2Proof/Laws/Status.lean ====
section
/-! SUPPORT. The fields of STATUS after a command, and the invariant of STATUS. -/

namespace Sys2Proof.Machine

@[simp] theorem errOf_statusWord (p : BitVec 8) (b : Bool) (e : BitVec 4) : errOf (statusWord p b e) = e := by
  revert p b e; decide +kernel

@[simp] theorem stickyOf_statusWord (p : BitVec 8) (b : Bool) (e : BitVec 4) : stickyOf (statusWord p b e) = b := by
  revert p b e; decide +kernel

@[simp] theorem statusReserved_statusWord (p : BitVec 8) (b : Bool) (e : BitVec 4) :
    statusReserved (statusWord p b e) = 0 := by
  revert p b e; decide +kernel

@[simp] theorem eposOf_statusWord (p : BitVec 8) (b : Bool) (e : BitVec 4) : eposOf (statusWord p b e) = p := by
  revert p b e; decide +kernel

@[simp] theorem errOf_statusCompleted (w : BitVec 16) : errOf (statusCompleted w) = 0 := errOf_statusWord ..
@[simp] theorem stickyOf_statusCompleted (w : BitVec 16) : stickyOf (statusCompleted w) = stickyOf w := stickyOf_statusWord ..
@[simp] theorem eposOf_statusCompleted (w : BitVec 16) : eposOf (statusCompleted w) = 0 := eposOf_statusWord ..
@[simp] theorem statusReserved_statusCompleted (w : BitVec 16) : statusReserved (statusCompleted w) = 0 :=
  statusReserved_statusWord ..

@[simp] theorem errOf_statusRaised (e : ErrCode) (p : BitVec 8) : errOf (statusRaised e p) = errValue e := errOf_statusWord ..
@[simp] theorem stickyOf_statusRaised (e : ErrCode) (p : BitVec 8) : stickyOf (statusRaised e p) = true := stickyOf_statusWord ..
@[simp] theorem eposOf_statusRaised (e : ErrCode) (p : BitVec 8) : eposOf (statusRaised e p) = p := eposOf_statusWord ..
@[simp] theorem statusReserved_statusRaised (e : ErrCode) (p : BitVec 8) : statusReserved (statusRaised e p) = 0 :=
  statusReserved_statusWord ..

theorem errValue_ne_zero (e : ErrCode) : errValue e ≠ 0 := by cases e <;> decide

theorem errValue_le (e : ErrCode) : (errValue e).toNat ≤ 4 := by cases e <;> decide

/-- A command that completes leaves STATUS good. -/
theorem complete_statusInv (s : State) : StatusInv (complete s) := by
  constructor <;> simp

/-- An error leaves STATUS good, if its position is one DECODE can report. -/
theorem raiseErr_statusInv (e : ErrCode) (p : BitVec 8) (s : State)
    (hp : p ≠ 0 → e = .invalidSymbol) (hle : p.toNat ≤ 17) : StatusInv (raiseErr e p s) := by
  constructor <;> simp only [raiseErr_status, errOf_statusRaised, stickyOf_statusRaised, eposOf_statusRaised,
    statusReserved_statusRaised, errValue_le, implies_true]
  · exact fun h => by rw [hp h]
  · exact hle

/-- STATUS is good or not by its bits alone. -/
theorem StatusInv.congr {s t : State} (h : t.status = s.status) (hs : StatusInv s) : StatusInv t := by
  obtain ⟨a, b, c, d, e⟩ := hs
  exact ⟨h ▸ a, h ▸ b, h ▸ c, h ▸ d, h ▸ e⟩

end Sys2Proof.Machine
end

