-- ==== Sys2Proof/Laws/Exec.lean ====
section
/-! SUPPORT. What a command can do, once: it raises one error and changes STATUS alone, or it completes. What a step can do. -/

namespace Sys2Proof.Machine

@[simp] theorem lengthOk_iff (l : Nat) : lengthOk l = true ↔ l ≤ 18 := decide_eq_true_iff

@[simp] theorem positionOk_iff (j : Nat) : positionOk j = true ↔ j < 18 := decide_eq_true_iff

@[simp] theorem badCoordinate_iff (s : State) :
    badCoordinate s = true ↔ isNaN s.latIn = true ∨ isNaN s.lonIn = true := by simp [badCoordinate]

/-! ## Each command's two outcomes -/

theorem exec_norm_ok {s : State} (h : badCoordinate s ≠ true) :
    exec .norm s = .next (complete { s with qlat := normLat s.latIn, qlon := normLon s.lonIn }) := if_neg h

theorem exec_norm_err {s : State} (h : badCoordinate s = true) :
    exec .norm s = .next (raiseErr .invalidCoordinate 0 s) := if_pos h

theorem exec_ilv_ok {j : Nat} (h : j < 18) (s : State) :
    exec (.ilv j) s = .next (complete { s with sym := symbolAt j s.qlat s.qlon }) := if_pos ((positionOk_iff j).2 h)

theorem exec_ilv_err {j : Nat} (h : ¬ j < 18) (s : State) :
    exec (.ilv j) s = .next (raiseErr .codeTooLong 0 s) := if_neg fun h' => h ((positionOk_iff j).1 h')

theorem exec_dilv_ok {j : Nat} (h : j < 18) (s : State) : exec (.dilv j) s =
    .next (complete { s with qlat := orLat j s.sym s.qlat, qlon := orLon j s.sym s.qlon }) :=
  if_pos ((positionOk_iff j).2 h)

theorem exec_dilv_err {j : Nat} (h : ¬ j < 18) (s : State) :
    exec (.dilv j) s = .next (raiseErr .codeTooLong 0 s) := if_neg fun h' => h ((positionOk_iff j).1 h')

theorem exec_unmap_ok {s : State} {i : Symbol} (h : indexOfChar s.char = some i) :
    exec .unmap s = .next (complete { s with sym := i }) := by rw [exec, execUnmap, h]

theorem exec_unmap_err {s : State} (h : indexOfChar s.char = none) :
    exec .unmap s = .next (raiseErr .invalidSymbol 0 s) := by rw [exec, execUnmap, h]

theorem exec_half_ok {l : Nat} (h : l ≤ 18) (s : State) :
    exec (.half l) s = .next (complete { s with hlatDeg := hdegLat l, hlonDeg := hdegLon l }) :=
  if_pos ((lengthOk_iff l).2 h)

theorem exec_half_err {l : Nat} (h : ¬ l ≤ 18) (s : State) :
    exec (.half l) s = .next (raiseErr .codeTooLong 0 s) := if_neg fun h' => h ((lengthOk_iff l).1 h')

theorem exec_center_ok {l : Nat} (h : l ≤ 18) (s : State) : exec (.center l) s =
    .next (complete { s with qlat := addHalf s.qlat (hqLat l), qlon := addHalf s.qlon (hqLon l) }) :=
  if_pos ((lengthOk_iff l).2 h)

theorem exec_center_err {l : Nat} (h : ¬ l ≤ 18) (s : State) :
    exec (.center l) s = .next (raiseErr .codeTooLong 0 s) := if_neg fun h' => h ((lengthOk_iff l).1 h')

theorem exec_encode_ok {l : Nat} (h : l ≤ 18) {s : State} (hb : badCoordinate s ≠ true) :
    exec (.encode l) s = .next (complete (withCode l (normLat s.latIn) (normLon s.lonIn) s)) := by
  rw [exec, execEncode, if_pos ((lengthOk_iff l).2 h), if_neg hb]

theorem exec_encode_nan {l : Nat} (h : l ≤ 18) {s : State} (hb : badCoordinate s = true) :
    exec (.encode l) s = .next (raiseErr .invalidCoordinate 0 s) := by
  rw [exec, execEncode, if_pos ((lengthOk_iff l).2 h), if_pos hb]

theorem exec_encode_err {l : Nat} (h : ¬ l ≤ 18) (s : State) :
    exec (.encode l) s = .next (raiseErr .codeTooLong 0 s) := if_neg fun h' => h ((lengthOk_iff l).1 h')

theorem exec_decode_ok {s : State} (h : s.codeLen.toNat ≤ 18) (hf : firstInvalid s.code s.codeLen.toNat = none) :
    exec .decode s = .next (complete (withEstimate (addHalf (cornerLat s.code s.codeLen.toNat) (hqLat s.codeLen.toNat))
      (addHalf (cornerLon s.code s.codeLen.toNat) (hqLon s.codeLen.toNat)) s.codeLen.toNat s)) := by
  simp only [exec, execDecode, if_pos ((lengthOk_iff _).2 h), hf]

theorem exec_decode_invalid {s : State} {j : Nat} (h : s.codeLen.toNat ≤ 18)
    (hf : firstInvalid s.code s.codeLen.toNat = some j) :
    exec .decode s = .next (raiseErr .invalidSymbol (BitVec.ofNat 8 j) s) := by
  simp only [exec, execDecode, if_pos ((lengthOk_iff _).2 h), hf]

theorem exec_decode_err {s : State} (h : ¬ s.codeLen.toNat ≤ 18) :
    exec .decode s = .next (raiseErr .codeTooLong 0 s) := if_neg fun h' => h ((lengthOk_iff _).1 h')

/-! ## All commands at once -/

/-- The end of a command that completes: what no command writes is as it was (10_state R22, R28). -/
structure CompletedFrom (s u : State) : Prop where
  status : u.status = s.status
  cmd : u.cmd = s.cmd
  latIn : u.latIn = s.latIn
  lonIn : u.lonIn = s.lonIn
  port : u.port = s.port
  reads : u.reads = s.reads

/-- The errors a command can raise (60_exceptions R200), with their position. -/
structure Raises (i : Instr) (s : State) (e : ErrCode) (p : BitVec 8) : Prop where
  outcome : exec i s = .next (raiseErr e p s)
  legal : e ≠ .illegalCommand
  position : p ≠ 0 → i = .decode ∧ e = .invalidSymbol
  position_le : p.toNat ≤ 17

theorem raises_zero {i : Instr} {s : State} {e : ErrCode} (h : exec i s = .next (raiseErr e 0 s))
    (he : e ≠ .illegalCommand) : Raises i s e 0 := ⟨h, he, fun h0 => absurd rfl h0, by decide⟩

/-- A command raises an error or completes (60_exceptions R204, 10_state R24). -/
theorem exec_cases (i : Instr) (s : State) :
    (∃ e p, Raises i s e p) ∨ (∃ u, exec i s = .next (complete u) ∧ CompletedFrom s u) := by
  have done : ∀ u, exec i s = .next (complete u) → CompletedFrom s u →
      (∃ e p, Raises i s e p) ∨ (∃ u, exec i s = .next (complete u) ∧ CompletedFrom s u) :=
    fun u h1 h2 => .inr ⟨u, h1, h2⟩
  have err : ∀ e, e ≠ .illegalCommand → exec i s = .next (raiseErr e 0 s) →
      (∃ e p, Raises i s e p) ∨ (∃ u, exec i s = .next (complete u) ∧ CompletedFrom s u) :=
    fun e he h => .inl ⟨e, 0, raises_zero h he⟩
  cases i with
  | nop => exact done _ rfl ⟨rfl, rfl, rfl, rfl, rfl, rfl⟩
  | denorm => exact done _ rfl ⟨rfl, rfl, rfl, rfl, rfl, rfl⟩
  | clrq => exact done _ rfl ⟨rfl, rfl, rfl, rfl, rfl, rfl⟩
  | map => exact done _ rfl ⟨rfl, rfl, rfl, rfl, rfl, rfl⟩
  | meters => exact done _ rfl ⟨rfl, rfl, rfl, rfl, rfl, rfl⟩
  | norm =>
    by_cases h : badCoordinate s = true
    · exact err .invalidCoordinate (by decide) (exec_norm_err h)
    · exact done _ (exec_norm_ok h) ⟨rfl, rfl, rfl, rfl, rfl, rfl⟩
  | ilv j =>
    by_cases h : j < 18
    · exact done _ (exec_ilv_ok h s) ⟨rfl, rfl, rfl, rfl, rfl, rfl⟩
    · exact err .codeTooLong (by decide) (exec_ilv_err h s)
  | dilv j =>
    by_cases h : j < 18
    · exact done _ (exec_dilv_ok h s) ⟨rfl, rfl, rfl, rfl, rfl, rfl⟩
    · exact err .codeTooLong (by decide) (exec_dilv_err h s)
  | unmap =>
    cases h : indexOfChar s.char with
    | none => exact err .invalidSymbol (by decide) (exec_unmap_err h)
    | some i => exact done _ (exec_unmap_ok h) ⟨rfl, rfl, rfl, rfl, rfl, rfl⟩
  | half l =>
    by_cases h : l ≤ 18
    · exact done _ (exec_half_ok h s) ⟨rfl, rfl, rfl, rfl, rfl, rfl⟩
    · exact err .codeTooLong (by decide) (exec_half_err h s)
  | center l =>
    by_cases h : l ≤ 18
    · exact done _ (exec_center_ok h s) ⟨rfl, rfl, rfl, rfl, rfl, rfl⟩
    · exact err .codeTooLong (by decide) (exec_center_err h s)
  | encode l =>
    by_cases h : l ≤ 18
    · by_cases hb : badCoordinate s = true
      · exact err .invalidCoordinate (by decide) (exec_encode_nan h hb)
      · exact done _ (exec_encode_ok h hb) ⟨rfl, rfl, rfl, rfl, rfl, rfl⟩
    · exact err .codeTooLong (by decide) (exec_encode_err h s)
  | decode =>
    by_cases h : s.codeLen.toNat ≤ 18
    · cases hf : firstInvalid s.code s.codeLen.toNat with
      | none => exact done _ (exec_decode_ok h hf) ⟨rfl, rfl, rfl, rfl, rfl, rfl⟩
      | some j =>
        have hj : j < 18 := lt_of_lt_of_le (firstInvalid_lt hf) h
        refine .inl ⟨.invalidSymbol, BitVec.ofNat 8 j, exec_decode_invalid h hf, by decide, fun _ => ⟨rfl, rfl⟩, ?_⟩
        rw [BitVec.toNat_ofNat]; omega
    · exact err .codeTooLong (by decide) (exec_decode_err h)

/-- Every command answers a next state (70_reset R236). -/
theorem exec_total (i : Instr) (s : State) : ∃ t, exec i s = .next t := by
  rcases exec_cases i s with ⟨_, _, h⟩ | ⟨_, h, -⟩
  · exact ⟨_, h.outcome⟩
  · exact ⟨_, h⟩

/-- A command touches neither CMD, nor the input coordinate, nor the host's side of the port (10_state R22, R28). -/
theorem exec_untouched {i : Instr} {s t : State} (h : exec i s = .next t) :
    t.cmd = s.cmd ∧ t.latIn = s.latIn ∧ t.lonIn = s.lonIn ∧ t.port = s.port ∧ t.reads = s.reads := by
  rcases exec_cases i s with ⟨_, _, hr⟩ | ⟨u, hu, c⟩
  · rw [hr.outcome] at h; cases h; exact ⟨rfl, rfl, rfl, rfl, rfl⟩
  · rw [hu] at h; cases h; exact ⟨c.cmd, c.latIn, c.lonIn, c.port, c.reads⟩

/-- After a command STATUS is good (10_state R23 to R26). -/
theorem exec_statusInv {i : Instr} {s t : State} (h : exec i s = .next t) : StatusInv t := by
  rcases exec_cases i s with ⟨e, p, hr⟩ | ⟨u, hu, -⟩
  · rw [hr.outcome] at h; cases h
    exact raiseErr_statusInv e p s (fun hp => (hr.position hp).2) hr.position_le
  · rw [hu] at h; cases h; exact complete_statusInv u

/-- A command never clears STICKY (10_state R25). -/
theorem exec_sticky {i : Instr} {s t : State} (h : exec i s = .next t) (hs : stickyOf s.status = true) :
    stickyOf t.status = true := by
  rcases exec_cases i s with ⟨e, p, hr⟩ | ⟨u, hu, c⟩
  · rw [hr.outcome] at h; cases h; simp
  · rw [hu] at h; cases h; simp [c.status, hs]

/-! ## Host writes -/

/-- A host write to a register other than CMD leaves STATUS, CMD and the host's side of the port (20_memory R53). -/
theorem writeReg_untouched (d : PortWord) (s : State) (r : Reg) :
    (writeReg d s r).status = s.status ∧ (writeReg d s r).port = s.port ∧ (writeReg d s r).reads = s.reads ∧
    (r ≠ .cmd → (writeReg d s r).cmd = s.cmd) := by
  cases r <;> simp [writeReg]

/-- Issuing the word in CMD runs its command, or raises IllegalCommand (10_state R22, 30_encoding R74). -/
theorem issue_cases (s : State) :
    (∃ i, decode s.cmd = .ok i ∧ issue s = exec i s) ∨
    (∃ r, decode s.cmd = .error r ∧ issue s = .next (raiseErr .illegalCommand 0 s)) := by
  unfold issue
  cases h : decode s.cmd with
  | ok i => exact .inl ⟨i, rfl, rfl⟩
  | error r => exact .inr ⟨r, rfl, rfl⟩

theorem issue_total (s : State) : ∃ t, issue s = .next t := by
  rcases issue_cases s with ⟨i, -, h⟩ | ⟨_, -, h⟩
  · rw [h]; exact exec_total i s
  · exact ⟨_, h⟩

theorem issue_statusInv {s t : State} (h : issue s = .next t) : StatusInv t := by
  rcases issue_cases s with ⟨i, -, hi⟩ | ⟨_, -, hi⟩ <;> rw [hi] at h
  · exact exec_statusInv h
  · cases h; exact raiseErr_statusInv _ _ _ (fun h0 => absurd rfl h0) (by decide)

theorem issue_untouched {s t : State} (h : issue s = .next t) :
    t.cmd = s.cmd ∧ t.latIn = s.latIn ∧ t.lonIn = s.lonIn ∧ t.port = s.port ∧ t.reads = s.reads := by
  rcases issue_cases s with ⟨i, -, hi⟩ | ⟨_, -, hi⟩ <;> rw [hi] at h
  · exact exec_untouched h
  · cases h; exact ⟨rfl, rfl, rfl, rfl, rfl⟩

theorem issue_sticky {s t : State} (h : issue s = .next t) (hs : stickyOf s.status = true) :
    stickyOf t.status = true := by
  rcases issue_cases s with ⟨i, -, hi⟩ | ⟨_, -, hi⟩ <;> rw [hi] at h
  · exact exec_sticky h hs
  · cases h; simp

/-- A host write issues a command at CMD, and elsewhere stores the data or does nothing (20_memory R53). -/
theorem hostWrite_cases (s : State) (idx : RegIndex) (d : PortWord) :
    (regAt idx = some .cmd ∧ hostWrite s idx d = issue { s with cmd := d.setWidth 16 }) ∨
    (∃ r, regAt idx = some r ∧ r ≠ .cmd ∧ hostWrite s idx d = .next (writeReg d s r)) ∨
    (regAt idx = none ∧ hostWrite s idx d = .next s) := by
  unfold hostWrite
  cases h : regAt idx with
  | none => exact .inr (.inr ⟨rfl, rfl⟩)
  | some r =>
    by_cases hr : r = .cmd
    · subst hr; exact .inl ⟨rfl, by simp only [if_true, writeReg]⟩
    · exact .inr (.inl ⟨r, rfl, hr, by simp only [if_neg hr]⟩)

/-! ## One event, one step -/

/-- Every accepted event answers a next state and leaves the pending ones (20_memory R55, R57). -/
theorem accept_total (e : PortEvent) (s : State) : ∃ t, accept e s = .next t ∧ t.port = s.port := by
  cases e with
  | read idx => exact ⟨_, rfl, rfl⟩
  | reset => exact ⟨_, rfl, rfl⟩
  | write idx d =>
    rw [accept]
    rcases hostWrite_cases s idx d with ⟨-, h⟩ | ⟨r, -, -, h⟩ | ⟨-, h⟩ <;> rw [h]
    · obtain ⟨t, ht⟩ := issue_total { s with cmd := d.setWidth 16 }
      exact ⟨t, ht, (issue_untouched ht).2.2.2.1⟩
    · exact ⟨_, rfl, (writeReg_untouched d s r).2.1⟩
    · exact ⟨_, rfl, rfl⟩

theorem step_nil {s : State} (h : s.port = []) : step s = .next s := by
  rw [step, takeEvent, h]

theorem step_cons {s : State} {e : PortEvent} {rest : List PortEvent} (h : s.port = e :: rest) :
    step s = accept e { s with port := rest } := by
  rw [step, takeEvent, h]

/-- Every step answers a next state and takes the oldest pending event, if there is one. -/
theorem step_total (s : State) : ∃ t, step s = .next t ∧ t.port = s.port.tail := by
  cases h : s.port with
  | nil => exact ⟨s, step_nil h, h⟩
  | cons e rest =>
    obtain ⟨t, ht, hp⟩ := accept_total e { s with port := rest }
    exact ⟨t, (step_cons h).trans ht, hp⟩

/-- A step that answers next is the first step of a run. -/
theorem run_succ {n : Nat} {s t : State} (h : step s = .next t) :
    Sys2Proof.core.run (n + 1) s = Sys2Proof.core.run n t := by
  have h' : Sys2Proof.core.step s = .next t := h
  simp only [Host.Core.run, h']

theorem run_zero (s : State) : Sys2Proof.core.run 0 s = .next s := rfl

end Sys2Proof.Machine
end

