-- ==== Sys2Proof/Laws/Rounding.lean ====
section
/-! SUPPORT. Rounding (00_scope R11): the body `roundBody` computes is the one nearest to the exact quotient, ties to even,
and rounding is monotone. Magnitudes are counted in units of 2^-1074. -/

namespace Sys2Proof.Machine

/-! ## Patterns -/

/-- The magnitude of a body, in units. -/
def bodyMag (m : Nat) : Nat :=
  if m / 2 ^ 52 = 0 then m % 2 ^ 52 else (2 ^ 52 + m % 2 ^ 52) * 2 ^ (m / 2 ^ 52 - 1)

theorem toNat_ofBody (b : Bool) (m : Nat) : (ofBody b m).toNat = b.toNat * 2 ^ 63 + m % 2 ^ 63 := by
  have h : (ofBody b m).toNat = (BitVec.ofBool b).toNat <<< 63 ||| (BitVec.ofNat 63 m).toNat :=
    BitVec.toNat_append (BitVec.ofBool b) (BitVec.ofNat 63 m)
  rw [h, BitVec.toNat_ofBool, BitVec.toNat_ofNat, ← Nat.shiftLeft_add_eq_or_of_lt (Nat.mod_lt _ (by decide)),
    Nat.shiftLeft_eq]

theorem fSign_eq (x : F64) : fSign x = decide (2 ^ 63 ≤ x.toNat) := by
  have := x.isLt
  rw [fSign, BitVec.getLsbD, Nat.testBit_eq_decide_div_mod_eq]
  congr 1
  rw [eq_iff_iff]; omega

theorem fBody_eq (x : F64) : fBody x = x.toNat % 2 ^ 63 := by
  simp [fBody, BitVec.extractLsb'_toNat]

@[simp] theorem fSign_ofBody (b : Bool) (m : Nat) : fSign (ofBody b m) = b := by
  rw [fSign_eq, toNat_ofBody]
  have := Nat.mod_lt m (show 0 < 2 ^ 63 by decide)
  cases b
  · simpa using this
  · simp

theorem fBody_ofBody {b : Bool} {m : Nat} (h : m < 2 ^ 63) : fBody (ofBody b m) = m := by
  rw [fBody_eq, toNat_ofBody]; omega

theorem fExp_eq (x : F64) : fExp x = fBody x / 2 ^ 52 := by
  simp only [fExp, fBody, BitVec.extractLsb'_toNat, Nat.shiftRight_eq_div_pow]
  omega

theorem fFrac_eq (x : F64) : fFrac x = fBody x % 2 ^ 52 := by
  simp only [fFrac, fBody, BitVec.extractLsb'_toNat, Nat.shiftRight_eq_div_pow]
  omega

theorem fMag_eq (x : F64) : fMag x = bodyMag (fBody x) := by
  simp only [fMag, bodyMag, fExp_eq, fFrac_eq]

theorem fBody_lt (x : F64) : fBody x < 2 ^ 63 := BitVec.isLt _

/-- A pattern is its sign and its body. -/
theorem ofBody_fSign_fBody (x : F64) : ofBody (fSign x) (fBody x) = x := by
  apply BitVec.eq_of_toNat_eq
  have := x.isLt
  rw [toNat_ofBody, fSign_eq, fBody_eq]
  by_cases h : 2 ^ 63 ≤ x.toNat <;> simp only [h, decide_true, decide_false, Bool.toNat_true, Bool.toNat_false] <;> omega

/-- Two patterns with the same sign and body are one. -/
theorem f64_ext {x y : F64} (h1 : fSign x = fSign y) (h2 : fBody x = fBody y) : x = y := by
  rw [← ofBody_fSign_fBody x, ← ofBody_fSign_fBody y, h1, h2]

theorem isFinite_iff (x : F64) : isFinite x = true ↔ fBody x < infBody := by
  have := fBody_lt x
  simp only [isFinite, fExp_eq, infBody, bne_iff_ne, ne_eq]
  omega

theorem isNaN_iff (x : F64) : isNaN x = true ↔ infBody < fBody x := by
  have := fBody_lt x
  simp only [isNaN, fExp_eq, fFrac_eq, infBody, Bool.and_eq_true, beq_iff_eq, bne_iff_ne, ne_eq]
  omega

theorem isInf_iff (x : F64) : isInf x = true ↔ fBody x = infBody := by
  have := fBody_lt x
  simp only [isInf, fExp_eq, fFrac_eq, infBody, Bool.and_eq_true, beq_iff_eq]
  omega

theorem isZero_iff (x : F64) : isZero x = true ↔ fBody x = 0 := by simp [isZero]

/-! ## The magnitude of a body -/

/-- A significand k shifted by sh is the magnitude of the body `sh·2^52 + k`, the carry k = 2^53 included. -/
theorem bodyMag_shift {sh k : Nat} (hk : k ≤ 2 ^ 53) (h : sh = 0 ∨ 2 ^ 52 ≤ k) :
    bodyMag (sh * 2 ^ 52 + k) = k * 2 ^ sh := by
  rcases Nat.lt_or_ge k (2 ^ 52) with h1 | h1
  · obtain rfl : sh = 0 := by omega
    rw [bodyMag, if_pos (by omega)]; omega
  · rcases Nat.lt_or_ge k (2 ^ 53) with h2 | h2
    · have e1 : (sh * 2 ^ 52 + k) / 2 ^ 52 = sh + 1 := by omega
      have e2 : (sh * 2 ^ 52 + k) % 2 ^ 52 = k - 2 ^ 52 := by omega
      rw [bodyMag, e1, e2, if_neg (by omega), Nat.add_sub_cancel, Nat.add_sub_cancel' h1]
    · obtain rfl : k = 2 ^ 53 := by omega
      have e1 : (sh * 2 ^ 52 + 2 ^ 53) / 2 ^ 52 = sh + 1 + 1 := by omega
      have e2 : (sh * 2 ^ 52 + 2 ^ 53) % 2 ^ 52 = 0 := by omega
      rw [bodyMag, e1, e2, if_neg (by omega), Nat.add_sub_cancel, pow_succ]
      ring

/-- Every body is a significand and a shift. -/
theorem bodyMag_cases (m : Nat) : ∃ sh k, m = sh * 2 ^ 52 + k ∧ k < 2 ^ 53 ∧ (sh = 0 ∨ 2 ^ 52 ≤ k) ∧
    bodyMag m = k * 2 ^ sh := by
  rcases Nat.eq_zero_or_pos (m / 2 ^ 52) with h | h
  · refine ⟨0, m, by omega, by omega, .inl rfl, ?_⟩
    rw [bodyMag, if_pos h]; omega
  · refine ⟨m / 2 ^ 52 - 1, 2 ^ 52 + m % 2 ^ 52, by omega, by omega, .inr (by omega), ?_⟩
    rw [bodyMag, if_neg (by omega)]

theorem bodyMag_strictMono : StrictMono bodyMag := by
  refine strictMono_nat_of_lt_succ fun m => ?_
  obtain ⟨sh, k, rfl, hk, h, e⟩ := bodyMag_cases m
  rw [e, add_assoc, bodyMag_shift (by omega) (by omega)]
  exact Nat.mul_lt_mul_of_pos_right (by omega) (by positivity)

theorem bodyMag_infBody : bodyMag infBody = 2 ^ 2098 := by decide +kernel

/-! ## Rounding a quotient -/

theorem roundQuot_spec (n : Nat) {d : Nat} (hd : 0 < d) :
    (2 * (roundQuot n d * d) ≤ 2 * n + d) ∧ (2 * n ≤ 2 * (roundQuot n d * d) + d) ∧
    (2 * (roundQuot n d * d) = 2 * n + d ∨ 2 * n = 2 * (roundQuot n d * d) + d → roundQuot n d % 2 = 0) := by
  have h1 := Nat.div_add_mod n d
  have h2 := Nat.mod_lt n hd
  rw [mul_comm] at h1
  unfold roundQuot
  split
  · refine ⟨by omega, by omega, by omega⟩
  · split
    · rw [add_mul, one_mul]
      refine ⟨by omega, by omega, by omega⟩
    · rcases Nat.mod_two_eq_zero_or_one (n / d) with h | h
      · rw [h, add_zero]
        refine ⟨by omega, by omega, fun _ => h⟩
      · rw [h, add_mul, one_mul]
        refine ⟨by omega, by omega, by omega⟩

/-- `b` is the body whose magnitude is nearest to x, ties to an even body. -/
structure IsNearest (x : ℚ) (b : Nat) : Prop where
  le : ∀ m, |(bodyMag b : ℚ) - x| ≤ |(bodyMag m : ℚ) - x|
  even : ∀ m, m ≠ b → |(bodyMag m : ℚ) - x| = |(bodyMag b : ℚ) - x| → b % 2 = 0

/-- What `roundBody` computes before its clamp. -/
def rawBody (n d : Nat) : Nat := roundShift n d * 2 ^ 52 + roundQuot n (d * 2 ^ roundShift n d)

theorem roundBody_eq (n d : Nat) : roundBody n d = min (rawBody n d) infBody := rfl

/-- The significand of a rounding lies in 53 bits, and has all of them where the shift is not 0. -/
theorem rawBody_significand (n : Nat) {d : Nat} (hd : 0 < d) :
    roundQuot n (d * 2 ^ roundShift n d) ≤ 2 ^ 53 ∧
    (roundShift n d = 0 ∨ 2 ^ 52 ≤ roundQuot n (d * 2 ^ roundShift n d)) ∧
    (roundShift n d = 0 ∨ 2 ^ 52 * (d * 2 ^ roundShift n d) ≤ n) := by
  set sh := roundShift n d with hsh
  have hq : n / (d * 2 ^ sh) = n / d / 2 ^ sh := (Nat.div_div_eq_div_mul ..).symm
  have hD : 0 < d * 2 ^ sh := by positivity
  have hup : n / d / 2 ^ sh < 2 ^ 53 := by
    rw [Nat.div_lt_iff_lt_mul (by positivity), ← pow_add]
    refine Nat.lt_log2_self.trans_le (Nat.pow_le_pow_right (by norm_num) ?_)
    simp only [hsh, roundShift]; omega
  have hk1 : roundQuot n (d * 2 ^ sh) ≤ n / (d * 2 ^ sh) + 1 := by
    unfold roundQuot; split_ifs <;> omega
  have hk2 : n / (d * 2 ^ sh) ≤ roundQuot n (d * 2 ^ sh) := by
    unfold roundQuot; split_ifs <;> omega
  have hlow : sh = 0 ∨ 2 ^ 52 ≤ n / (d * 2 ^ sh) := by
    rcases Nat.eq_zero_or_pos sh with h0 | h0
    · exact .inl h0
    · right
      have hne : n / d ≠ 0 := by
        intro h; rw [hsh, roundShift, h] at h0; simp at h0
      rw [hq, Nat.le_div_iff_mul_le (by positivity), ← pow_add]
      refine le_trans (Nat.pow_le_pow_right (by norm_num) ?_) (Nat.log2_self_le hne)
      simp only [hsh, roundShift] at h0 ⊢; omega
  refine ⟨by omega, by omega, hlow.imp id fun h => ?_⟩
  exact (Nat.le_div_iff_mul_le hD).1 h

theorem bodyMag_rawBody (n : Nat) {d : Nat} (hd : 0 < d) :
    bodyMag (rawBody n d) = roundQuot n (d * 2 ^ roundShift n d) * 2 ^ roundShift n d :=
  bodyMag_shift (rawBody_significand n hd).1 (rawBody_significand n hd).2.1

/-- The heart of rounding: the unclamped body is the nearest one to n/d, ties to even. -/
theorem rawBody_isNearest (n : Nat) {d : Nat} (hd : 0 < d) : IsNearest ((n : ℚ) / d) (rawBody n d) := by
  obtain ⟨hk, hk', hn⟩ := rawBody_significand n hd
  have hv := bodyMag_rawBody n hd
  have hodd : rawBody n d % 2 = roundQuot n (d * 2 ^ roundShift n d) % 2 := by
    unfold rawBody; omega
  generalize hsh : roundShift n d = sh at *
  obtain ⟨hs1, hs2, hs3⟩ := roundQuot_spec n (d := d * 2 ^ sh) (by positivity)
  generalize hK : roundQuot n (d * 2 ^ sh) = K at *
  have hdq : (0 : ℚ) < d := by exact_mod_cast hd
  have hp : (0 : ℚ) < 2 ^ sh := by positivity
  have hs1' : 2 * ((K : ℚ) * (d * 2 ^ sh)) ≤ 2 * n + d * 2 ^ sh := by exact_mod_cast hs1
  have hs2' : 2 * (n : ℚ) ≤ 2 * (K * (d * 2 ^ sh)) + d * 2 ^ sh := by exact_mod_cast hs2
  set x : ℚ := (n : ℚ) / d with hx
  have hnx : (n : ℚ) = x * d := by rw [hx]; field_simp
  rw [hnx] at hs1' hs2'
  have a1 : 2 * ((K : ℚ) * 2 ^ sh) ≤ 2 * x + 2 ^ sh := by nlinarith
  have a2 : 2 * x ≤ 2 * ((K : ℚ) * 2 ^ sh) + 2 ^ sh := by nlinarith
  have a3 : (2 * ((K : ℚ) * 2 ^ sh) = 2 * x + 2 ^ sh ∨ 2 * x = 2 * ((K : ℚ) * 2 ^ sh) + 2 ^ sh) → K % 2 = 0 := by
    rintro (h | h)
    · refine hs3 (.inl ?_)
      have : 2 * ((K : ℚ) * (d * 2 ^ sh)) = 2 * n + d * 2 ^ sh := by rw [hnx]; linear_combination d * h
      exact_mod_cast this
    · refine hs3 (.inr ?_)
      have : 2 * (n : ℚ) = 2 * (K * (d * 2 ^ sh)) + d * 2 ^ sh := by rw [hnx]; linear_combination d * h
      exact_mod_cast this
  have hvq : (bodyMag (rawBody n d) : ℚ) = K * 2 ^ sh := by rw [hv]; push_cast; ring
  -- against a multiple of 2^sh
  have key : ∀ j : Nat, |(K : ℚ) * 2 ^ sh - x| ≤ |(j : ℚ) * 2 ^ sh - x| ∧
      (j ≠ K → |(j : ℚ) * 2 ^ sh - x| = |(K : ℚ) * 2 ^ sh - x| → K % 2 = 0) := by
    intro j
    rcases Nat.lt_trichotomy j K with h | h | h
    · have : ((j : ℚ) + 1) * 2 ^ sh ≤ K * 2 ^ sh := by gcongr; exact_mod_cast h
      have c1 : |(j : ℚ) * 2 ^ sh - x| = x - j * 2 ^ sh := by
        rw [abs_of_nonpos (by nlinarith)]; ring
      have c2 : |(K : ℚ) * 2 ^ sh - x| ≤ x - j * 2 ^ sh := by
        rw [abs_le]; constructor <;> nlinarith
      refine ⟨by rw [c1]; exact c2, fun _ he => a3 (.inl ?_)⟩
      rw [c1] at he
      rcases abs_cases ((K : ℚ) * 2 ^ sh - x) with ⟨e, -⟩ | ⟨e, -⟩ <;> rw [e] at he <;> nlinarith
    · subst h; exact ⟨le_rfl, fun h => absurd rfl h⟩
    · have : ((K : ℚ) + 1) * 2 ^ sh ≤ j * 2 ^ sh := by gcongr; exact_mod_cast h
      have c1 : |(j : ℚ) * 2 ^ sh - x| = j * 2 ^ sh - x := abs_of_nonneg (by nlinarith)
      have c2 : |(K : ℚ) * 2 ^ sh - x| ≤ j * 2 ^ sh - x := by
        rw [abs_le]; constructor <;> nlinarith
      refine ⟨by rw [c1]; exact c2, fun _ he => a3 (.inr ?_)⟩
      rw [c1] at he
      rcases abs_cases ((K : ℚ) * 2 ^ sh - x) with ⟨e, -⟩ | ⟨e, -⟩ <;> rw [e] at he <;> nlinarith
  -- any other magnitude is a multiple of 2^sh, or further than 2^52·2^sh
  have both : ∀ m, |(K : ℚ) * 2 ^ sh - x| ≤ |(bodyMag m : ℚ) - x| ∧
      (m ≠ rawBody n d → |(bodyMag m : ℚ) - x| = |(K : ℚ) * 2 ^ sh - x| → K % 2 = 0) := by
    intro m
    obtain ⟨t, j, -, hj, -, e⟩ := bodyMag_cases m
    rcases Nat.lt_or_ge t sh with ht | ht
    · have hn' : 2 ^ 52 * (d * 2 ^ sh) ≤ n := by
        rcases hn with h | h
        · omega
        · exact h
      have hx0 : (2 : ℚ) ^ 52 * 2 ^ sh ≤ x := by
        have : (2 : ℚ) ^ 52 * (d * 2 ^ sh) ≤ x * d := by rw [← hnx]; exact_mod_cast hn'
        nlinarith
      have hlt : bodyMag m < 2 ^ 52 * 2 ^ sh := by
        rw [e]
        calc j * 2 ^ t < 2 ^ 53 * 2 ^ t := Nat.mul_lt_mul_of_pos_right hj (by positivity)
          _ = 2 ^ 52 * 2 ^ (t + 1) := by ring
          _ ≤ 2 ^ 52 * 2 ^ sh := by gcongr <;> omega
      have hltq : (bodyMag m : ℚ) < 2 ^ 52 * 2 ^ sh := by exact_mod_cast hlt
      have k0 := (key (2 ^ 52)).1
      rw [Nat.cast_pow, Nat.cast_ofNat] at k0
      have c1 : |(2 : ℚ) ^ 52 * 2 ^ sh - x| = x - 2 ^ 52 * 2 ^ sh := by
        rw [abs_of_nonpos (by linarith)]; ring
      have c2 : |(bodyMag m : ℚ) - x| = x - bodyMag m := by
        rw [abs_of_nonpos (by linarith)]; ring
      rw [c1] at k0
      exact ⟨by rw [c2]; linarith, fun _ he => by rw [c2] at he; linarith⟩
    · have em : bodyMag m = j * 2 ^ (t - sh) * 2 ^ sh := by
        rw [e, mul_assoc, ← pow_add, Nat.sub_add_cancel ht]
      have emq : (bodyMag m : ℚ) = (j * 2 ^ (t - sh) : ℕ) * 2 ^ sh := by rw [em]; push_cast; ring
      rw [emq]
      refine ⟨(key _).1, fun hne => (key _).2 fun hjK => hne ?_⟩
      refine bodyMag_strictMono.injective ?_
      rw [em, hv, hjK]
  constructor
  · intro m; rw [hvq]; exact (both m).1
  · intro m hm he; rw [hvq] at he; rw [hodd]; exact (both m).2 hm he

/-! ## Nearest bodies are unique and monotone -/

theorem IsNearest.mono {x y : ℚ} {a b : Nat} (ha : IsNearest x a) (hb : IsNearest y b) (h : x ≤ y) : a ≤ b := by
  by_contra hab
  have hab : b < a := Nat.lt_of_not_le hab
  have hm : (bodyMag b : ℚ) < bodyMag a := by exact_mod_cast bodyMag_strictMono hab
  have h1 := ha.le b
  have h2 := hb.le a
  have hx : (bodyMag b : ℚ) + bodyMag a ≤ 2 * x := by
    rcases abs_cases ((bodyMag a : ℚ) - x) with ⟨e, _⟩ | ⟨e, _⟩ <;>
    rcases abs_cases ((bodyMag b : ℚ) - x) with ⟨e', _⟩ | ⟨e', _⟩ <;> rw [e, e'] at h1 <;> linarith
  have hy : 2 * y ≤ (bodyMag b : ℚ) + bodyMag a := by
    rcases abs_cases ((bodyMag a : ℚ) - y) with ⟨e, _⟩ | ⟨e, _⟩ <;>
    rcases abs_cases ((bodyMag b : ℚ) - y) with ⟨e', _⟩ | ⟨e', _⟩ <;> rw [e, e'] at h2 <;> linarith
  have hxy : x = y := by linarith
  subst hxy
  have ea : |(bodyMag a : ℚ) - x| = ((bodyMag a : ℚ) - bodyMag b) / 2 := by
    rw [abs_of_nonneg (by linarith)]; linarith
  have eb : |(bodyMag b : ℚ) - x| = ((bodyMag a : ℚ) - bodyMag b) / 2 := by
    rw [abs_of_nonpos (by linarith)]; linarith
  have pa := ha.even b (by omega) (by rw [ea, eb])
  have pb := hb.even a (by omega) (by rw [ea, eb])
  have c1 : (bodyMag b : ℚ) < bodyMag (a - 1) := by exact_mod_cast bodyMag_strictMono (by omega)
  have c2 : (bodyMag (a - 1) : ℚ) < bodyMag a := by exact_mod_cast bodyMag_strictMono (by omega)
  have h3 := ha.le (a - 1)
  rw [ea] at h3
  rcases abs_cases ((bodyMag (a - 1) : ℚ) - x) with ⟨e, _⟩ | ⟨e, _⟩ <;> rw [e] at h3 <;> linarith

theorem IsNearest.unique {x : ℚ} {a b : Nat} (ha : IsNearest x a) (hb : IsNearest x b) : a = b :=
  le_antisymm (ha.mono hb le_rfl) (hb.mono ha le_rfl)

theorem isNearest_bodyMag (m : Nat) : IsNearest (bodyMag m) m := by
  constructor
  · intro j; simp
  · intro j hj he
    rw [sub_self, abs_zero, abs_eq_zero, sub_eq_zero] at he
    exact absurd (bodyMag_strictMono.injective (by exact_mod_cast he)) hj

/-- Rounding is monotone in the exact quotient. -/
theorem roundBody_mono {n d n' d' : Nat} (hd : 0 < d) (hd' : 0 < d') (h : (n : ℚ) / d ≤ n' / d') :
    roundBody n d ≤ roundBody n' d' := by
  rw [roundBody_eq, roundBody_eq]
  exact min_le_min_right _ ((rawBody_isNearest n hd).mono (rawBody_isNearest n' hd') h)

/-- A magnitude that some body has is rounded to that body. -/
theorem roundBody_exact {n d m : Nat} (hd : 0 < d) (h : (n : ℚ) / d = bodyMag m) (hm : m ≤ infBody) :
    roundBody n d = m := by
  have := (rawBody_isNearest n hd).unique (h ▸ isNearest_bodyMag m)
  rw [roundBody_eq, this, min_eq_left hm]

theorem roundBody_le (n d : Nat) : roundBody n d ≤ infBody := min_le_right _ _

theorem roundBody_lt (n d : Nat) : roundBody n d < 2 ^ 63 :=
  lt_of_le_of_lt (roundBody_le n d) (by decide)

/-- A quotient rounds to infinity from halfway between the largest finite magnitude and 2^2098 units on. -/
theorem rawBody_overflow (n : Nat) {d : Nat} (hd : 0 < d) :
    infBody ≤ rawBody n d ↔ (2 : ℚ) ^ 2098 - 2 ^ 2044 ≤ (n : ℚ) / d := by
  have near := rawBody_isNearest n hd
  set b := rawBody n d with hb
  set x := (n : ℚ) / d with hx
  have hmax : (bodyMag (infBody - 1) : ℚ) = 2 ^ 2098 - 2 ^ 2045 := by
    have : bodyMag (infBody - 1) = 2 ^ 2098 - 2 ^ 2045 := by decide +kernel
    rw [this, Nat.cast_sub (Nat.pow_le_pow_right (by norm_num) (by norm_num)), Nat.cast_pow, Nat.cast_pow, Nat.cast_ofNat]
  have hinf : (bodyMag infBody : ℚ) = 2 ^ 2098 := by simp only [bodyMag_infBody, Nat.cast_pow, Nat.cast_ofNat]
  have hp : (2 : ℚ) ^ 2045 = 2 * 2 ^ 2044 := by rw [← pow_succ']
  have hpos : (0 : ℚ) < 2 ^ 2044 := by positivity
  generalize (2 : ℚ) ^ 2044 = e at *
  generalize (2 : ℚ) ^ 2045 = e2 at *
  generalize (2 : ℚ) ^ 2098 = f at *
  constructor
  · intro h
    by_contra hlt
    push Not at hlt
    have hv : f ≤ (bodyMag b : ℚ) := by
      rw [← hinf]; exact_mod_cast bodyMag_strictMono.monotone h
    have h1 := near.le (infBody - 1)
    rw [hmax] at h1
    rcases abs_cases ((bodyMag b : ℚ) - x) with ⟨e1, _⟩ | ⟨e1, _⟩ <;>
    rcases abs_cases (f - e2 - x) with ⟨e3, _⟩ | ⟨e3, _⟩ <;> rw [e1, e3] at h1 <;> linarith
  · intro h
    by_contra hlt
    have hle : b ≤ infBody - 1 := by omega
    have hv : (bodyMag b : ℚ) ≤ f - e2 := by
      rw [← hmax]; exact_mod_cast bodyMag_strictMono.monotone hle
    have h1 := near.le infBody
    rw [hinf] at h1
    have e1 : |(bodyMag b : ℚ) - x| = x - bodyMag b := by
      rw [abs_of_nonpos (by linarith)]; ring
    rw [e1] at h1
    have hmid : x = f - e ∧ (bodyMag b : ℚ) = f - e2 := by
      rcases abs_cases (f - x) with ⟨e3, _⟩ | ⟨e3, _⟩ <;> rw [e3] at h1
      · constructor <;> linarith
      · exfalso; linarith
    have hbm : b = infBody - 1 := bodyMag_strictMono.injective (by
      have := hmid.2.trans hmax.symm; exact_mod_cast this)
    have := near.even infBody (by omega) (by
      rw [hinf, e1, hmid.1, hmid.2, abs_of_nonneg (by linarith)]; linarith)
    rw [hbm] at this
    exact absurd this (by decide)

end Sys2Proof.Machine
end

