-- ==== Sys2Proof/Laws/Float.lean ====
section
/-! SUPPORT. Binary64 values: the value of a pattern, and `round64` as rounding to nearest, ties to even (00_scope R11). -/

namespace Sys2Proof.Machine

theorem unitsPerOne_eq : unitsPerOne = 2 ^ 1074 := by unfold unitsPerOne; rfl

theorem unitsPerOne_pos : 0 < unitsPerOne := by rw [unitsPerOne_eq]; positivity

theorem unitsPerOne_ne_zero : unitsPerOne ≠ 0 := ne_of_gt unitsPerOne_pos

/-- The overflow bound in units. -/
theorem overflowBound_eq : overflowBound = (2 ^ 2098 - 2 ^ 2044) / unitsPerOne := by
  unfold overflowBound
  rw [eq_div_iff unitsPerOne_ne_zero, unitsPerOne_eq, sub_mul, ← pow_add, ← pow_add]

theorem overflowBound_pos : 0 < overflowBound := by
  unfold overflowBound
  rw [sub_pos]; exact pow_lt_pow_right₀ (by norm_num) (by norm_num)

/-- The sign of a value. -/
def sgn (b : Bool) : ℚ := if b then -1 else 1

@[simp] theorem sgn_true : sgn true = -1 := rfl
@[simp] theorem sgn_false : sgn false = 1 := rfl

@[simp] theorem abs_sgn (b : Bool) : |sgn b| = 1 := by cases b <;> simp

theorem sgn_mul_self (b : Bool) : sgn b * sgn b = 1 := by cases b <;> simp

theorem sgn_xor (a b : Bool) : sgn (a ^^ b) = sgn a * sgn b := by cases a <;> cases b <;> simp

theorem fVal_eq (x : F64) : fVal x = sgn (fSign x) * ((bodyMag (fBody x) : ℚ) / unitsPerOne) := by
  rw [fVal, fMag_eq, sgn]

theorem fVal_ofBody (b : Bool) {m : Nat} (h : m < 2 ^ 63) : fVal (ofBody b m) = sgn b * ((bodyMag m : ℚ) / unitsPerOne) := by
  rw [fVal_eq, fSign_ofBody, fBody_ofBody h]

theorem abs_fVal (x : F64) : |fVal x| = (bodyMag (fBody x) : ℚ) / unitsPerOne := by
  rw [fVal_eq, abs_mul, abs_sgn, one_mul, abs_of_nonneg (div_nonneg (Nat.cast_nonneg _) unitsPerOne_pos.le)]

theorem bodyMag_zero : bodyMag 0 = 0 := by decide

theorem bodyMag_eq_zero {m : Nat} : bodyMag m = 0 ↔ m = 0 :=
  ⟨fun h => bodyMag_strictMono.injective (h.trans bodyMag_zero.symm), fun h => h ▸ bodyMag_zero⟩

theorem fVal_eq_zero (x : F64) : fVal x = 0 ↔ fBody x = 0 := by
  rw [← abs_eq_zero, abs_fVal, div_eq_zero_iff]
  simp [bodyMag_eq_zero, unitsPerOne_ne_zero]

@[simp] theorem fSign_round64 (neg : Bool) (n d : Nat) : fSign (round64 neg n d) = neg := fSign_ofBody ..

@[simp] theorem fBody_round64 (neg : Bool) (n d : Nat) : fBody (round64 neg n d) = roundBody n d :=
  fBody_ofBody (roundBody_lt n d)

theorem getLsbD_zero_eq (x : F64) : x.getLsbD 0 = decide (fBody x % 2 = 1) := by
  rw [BitVec.getLsbD, Nat.testBit_eq_decide_div_mod_eq, fBody_eq]
  congr 1
  rw [eq_iff_iff]; omega

/-- A body reaches the infinities exactly from the overflow bound on. -/
theorem rawBody_overflow_iff (n : Nat) {d : Nat} (hd : 0 < d) :
    overflowBound ≤ (n : ℚ) / d / unitsPerOne ↔ infBody ≤ rawBody n d := by
  rw [overflowBound_eq, rawBody_overflow n hd, div_le_div_iff_of_pos_right unitsPerOne_pos]

/-- The distance of two values of one sign is the distance of their magnitudes. -/
theorem abs_sgn_mul_sub (b : Bool) (v u : ℚ) :
    |sgn b * (v / unitsPerOne) - sgn b * (u / unitsPerOne)| = |v - u| / unitsPerOne := by
  rw [← mul_sub, abs_mul, abs_sgn, one_mul, ← sub_div, abs_div, abs_of_pos unitsPerOne_pos]

/-- The distance of two values is at least that of their magnitudes. -/
theorem abs_mag_sub_le (a b : Bool) {v u : ℚ} (hv : 0 ≤ v) (hu : 0 ≤ u) :
    |v - u| / unitsPerOne ≤ |sgn a * (v / unitsPerOne) - sgn b * (u / unitsPerOne)| := by
  by_cases h : a = b
  · rw [h, abs_sgn_mul_sub]
  · have hs : sgn b = -sgn a := by revert h; cases a <;> cases b <;> simp
    rw [hs, neg_mul, sub_neg_eq_add, ← mul_add, abs_mul, abs_sgn, one_mul, ← add_div,
      abs_of_nonneg (div_nonneg (by linarith) unitsPerOne_pos.le)]
    refine div_le_div_of_nonneg_right ?_ unitsPerOne_pos.le
    rw [abs_le]; constructor <;> linarith

/-- A sign and a magnitude that is not zero make a value of that sign. -/
theorem sgn_mul_neg_iff (b : Bool) {w : ℚ} (hw : 0 ≤ w) (h : sgn b * w ≠ 0) : b = decide (sgn b * w < 0) := by
  have hpos : 0 < w := lt_of_le_of_ne hw fun h0 => h (by rw [← h0, mul_zero])
  cases b
  · rw [eq_comm, decide_eq_false_iff_not, sgn_false, one_mul]; linarith
  · rw [eq_comm, decide_eq_true_iff, sgn_true]; linarith

/-- A tie between a nearest magnitude and its negative happens at zero only. -/
theorem tie_opposite_zero {x : ℚ} {b : Nat} (near : IsNearest x b) (hx : 0 ≤ x)
    (h : (bodyMag b : ℚ) + x = |(bodyMag b : ℚ) - x|) : bodyMag b = 0 := by
  rcases abs_cases ((bodyMag b : ℚ) - x) with ⟨e, _⟩ | ⟨e, _⟩ <;> rw [e] at h
  · have hz : x = 0 := by linarith
    have h4 := near.le 0
    rw [bodyMag_zero, hz] at h4
    simpa using h4
  · have : (bodyMag b : ℚ) = 0 := by linarith
    exact_mod_cast this

/-- `round64` is rounding to nearest, ties to even, of ±(n/d) units (R11). -/
theorem round64_roundsTo (neg : Bool) (n : Nat) {d : Nat} (hd : 0 < d) :
    RoundsTo (sgn neg * ((n : ℚ) / d / unitsPerOne)) (round64 neg n d) := by
  have near := rawBody_isNearest n hd
  have hover := rawBody_overflow_iff n hd
  have hle := roundBody_eq n d
  have hval : fVal (round64 neg n d) = sgn neg * ((bodyMag (roundBody n d) : ℚ) / unitsPerOne) :=
    fVal_ofBody _ (roundBody_lt n d)
  have hu0 : (0 : ℚ) ≤ (n : ℚ) / d := by positivity
  generalize (n : ℚ) / d = u at *
  have hw : 0 ≤ u / unitsPerOne := div_nonneg hu0 unitsPerOne_pos.le
  have habs : |sgn neg * (u / unitsPerOne)| = u / unitsPerOne := by
    rw [abs_mul, abs_sgn, one_mul, abs_of_nonneg hw]
  have hsign := sgn_mul_neg_iff neg hw
  have hfin : u / unitsPerOne < overflowBound → rawBody n d < infBody ∧ roundBody n d = rawBody n d := by
    intro h
    have := hover.not.1 (not_le.2 h)
    exact ⟨by omega, by omega⟩
  constructor
  · intro h
    rw [habs] at h
    have hne : sgn neg * (u / unitsPerOne) ≠ 0 := by
      intro h0
      rw [h0, abs_zero] at habs
      exact absurd (h.trans habs.symm.le) (not_le.2 overflowBound_pos)
    rw [← hsign hne, round64, fInf]
    have := hover.1 h
    congr 1; omega
  · intro h
    rw [habs] at h
    rw [isFinite_iff, fBody_round64, (hfin h).2]
    exact (hfin h).1
  · intro h y _
    rw [habs] at h
    rw [hval, abs_sgn_mul_sub, (hfin h).2, fVal_eq]
    exact (div_le_div_of_nonneg_right (near.le _) unitsPerOne_pos.le).trans
      (abs_mag_sub_le _ _ (Nat.cast_nonneg _) hu0)
  · intro h y _ hne he
    rw [habs] at h
    have hr := (hfin h).2
    rw [getLsbD_zero_eq, fBody_round64, hr, decide_eq_false_iff_not]
    rw [hval, hr] at he hne
    rw [abs_sgn_mul_sub] at he
    have h1 := abs_mag_sub_le (fSign y) neg (Nat.cast_nonneg (bodyMag (fBody y))) hu0
    rw [← fVal_eq, he, div_le_div_iff_of_pos_right unitsPerOne_pos] at h1
    have h3 := le_antisymm h1 (near.le (fBody y))
    by_cases hb : fBody y = rawBody n d
    · exfalso
      rw [fVal_eq, hb] at he hne
      have hs' : sgn (fSign y) = -sgn neg := by
        by_cases hs : fSign y = neg
        · rw [hs] at hne; exact absurd rfl hne
        · revert hs; cases fSign y <;> cases neg <;> simp
      rw [hs', neg_mul, ← neg_add', abs_neg, ← mul_add, abs_mul, abs_sgn, one_mul, ← add_div,
        abs_of_nonneg (div_nonneg (by positivity) unitsPerOne_pos.le), div_left_inj' unitsPerOne_ne_zero] at he
      rw [tie_opposite_zero near hu0 he] at hne
      simp at hne
    · have := near.even _ hb h3
      omega
  · intro h
    rw [fSign_round64]; exact hsign h

/-! ## Classes, negation, and rounding against a representable bound -/

theorem class_cases (x : F64) : isFinite x = true ∨ isInf x = true ∨ isNaN x = true := by
  rw [isFinite_iff, isInf_iff, isNaN_iff]; omega

theorem isFinite_excludes {x : F64} (h : isFinite x = true) : isNaN x = false ∧ isInf x = false := by
  rw [isFinite_iff] at h
  rw [Bool.eq_false_iff, Bool.eq_false_iff, ne_eq, ne_eq, isNaN_iff, isInf_iff]; omega

theorem isInf_excludes {x : F64} (h : isInf x = true) : isNaN x = false ∧ isFinite x = false ∧ isZero x = false := by
  rw [isInf_iff] at h
  simp only [Bool.eq_false_iff, ne_eq, isNaN_iff, isFinite_iff, isZero_iff, h, infBody]; omega

theorem fBody_fNeg (x : F64) : fBody (fNeg x) = fBody x := by
  simp only [fBody, fNeg, BitVec.extractLsb'_xor, BitVec.toNat_xor]
  rw [show ((0x8000000000000000#64).extractLsb' 0 63).toNat = 0 by decide, Nat.xor_zero]

theorem fSign_fNeg (x : F64) : fSign (fNeg x) = !fSign x := by
  rw [fSign, fNeg, BitVec.getLsbD_xor, show (0x8000000000000000#64).getLsbD 63 = true by decide, fSign, Bool.xor_true]

theorem fVal_fNeg (x : F64) : fVal (fNeg x) = - fVal x := by
  rw [fVal_eq, fVal_eq, fBody_fNeg, fSign_fNeg]; cases fSign x <;> simp

theorem isFinite_fNeg (x : F64) : isFinite (fNeg x) = isFinite x := by
  rw [Bool.eq_iff_iff, isFinite_iff, isFinite_iff, fBody_fNeg]

/-- A rounding never passes a finite value that bounds it from above. -/
theorem RoundsTo.le {x : ℚ} {r y : F64} (h : RoundsTo x r) (hx : |x| < overflowBound) (hy : isFinite y = true)
    (hle : x ≤ fVal y) : fVal r ≤ fVal y := by
  have h1 := h.nearest hx y hy
  by_contra hc
  rw [abs_of_nonneg (by linarith : 0 ≤ fVal y - x), abs_of_nonneg (by linarith : 0 ≤ fVal r - x)] at h1
  linarith

/-- A rounding never passes a finite value that bounds it from below. -/
theorem RoundsTo.ge {x : ℚ} {r y : F64} (h : RoundsTo x r) (hx : |x| < overflowBound) (hy : isFinite y = true)
    (hle : fVal y ≤ x) : fVal y ≤ fVal r := by
  have h1 := h.nearest hx y hy
  by_contra hc
  rw [abs_of_nonpos (by linarith : fVal y - x ≤ 0), abs_of_nonpos (by linarith : fVal r - x ≤ 0)] at h1
  linarith

/-- The value of a pattern that is a whole number. -/
theorem fVal_whole {x : F64} {n : Nat} (h : fMag x = n * 2 ^ 1074) (hs : fSign x = false) : fVal x = n := by
  rw [fVal, hs, h, Nat.cast_mul, Nat.cast_pow, Nat.cast_two, ← unitsPerOne_eq, mul_div_assoc,
    div_self unitsPerOne_ne_zero]
  simp

theorem fVal_c90 : fVal c90 = 90 := fVal_whole (n := 90) (by decide +kernel) (by decide)
theorem fVal_c180 : fVal c180 = 180 := fVal_whole (n := 180) (by decide +kernel) (by decide)
theorem fVal_c360 : fVal c360 = 360 := fVal_whole (n := 360) (by decide +kernel) (by decide)
theorem fVal_c1 : fVal c1 = 1 := (fVal_whole (n := 1) (by decide +kernel) (by decide)).trans (by norm_num)
theorem fVal_c2p56 : fVal c2p56 = 2 ^ 56 := (fVal_whole (n := 2 ^ 56) (by decide +kernel) (by decide)).trans (by norm_num)

end Sys2Proof.Machine
end

