-- ==== Sys2Proof/Laws/PerInstr.lean ====
section
/-! SUPPORT. Per command: the fields of its word (30_encoding R70 to R73). -/

namespace Sys2Proof.Laws.WordFields

/-- The opcode of each command, as the table of R73 lists it. -/
def opcode : Instr → BitVec 4
  | .nop => 0x0
  | .norm => 0x1
  | .denorm => 0x2
  | .clrq => 0x3
  | .ilv _ => 0x4
  | .dilv _ => 0x5
  | .map => 0x6
  | .unmap => 0x7
  | .half _ => 0x8
  | .center _ => 0x9
  | .meters => 0xA
  | .encode _ => 0xB
  | .decode => 0xC

/-- The operand N of each command, 0 where it takes none (R71). -/
def operand : Instr → Nat
  | .ilv n | .dilv n | .half n | .center n | .encode n => n
  | .nop | .norm | .denorm | .clrq | .map | .unmap | .meters | .decode => 0

/-- A command's word holds its opcode, RSV = 0 and its operand (R70). -/
def Statement (i : Instr) : Prop :=
  opField (encode i) = opcode i ∧ rsvField (encode i) = 0 ∧ nField (encode i) = BitVec.ofNat 8 (operand i)

theorem nop : Statement .nop := ⟨opField_cmdWord .., rsvField_cmdWord .., nField_cmdWord ..⟩
theorem norm : Statement .norm := ⟨opField_cmdWord .., rsvField_cmdWord .., nField_cmdWord ..⟩
theorem denorm : Statement .denorm := ⟨opField_cmdWord .., rsvField_cmdWord .., nField_cmdWord ..⟩
theorem clrq : Statement .clrq := ⟨opField_cmdWord .., rsvField_cmdWord .., nField_cmdWord ..⟩
theorem ilv (j : Nat) : Statement (.ilv j) := ⟨opField_cmdWord .., rsvField_cmdWord .., nField_cmdWord ..⟩
theorem dilv (j : Nat) : Statement (.dilv j) := ⟨opField_cmdWord .., rsvField_cmdWord .., nField_cmdWord ..⟩
theorem map : Statement .map := ⟨opField_cmdWord .., rsvField_cmdWord .., nField_cmdWord ..⟩
theorem unmap : Statement .unmap := ⟨opField_cmdWord .., rsvField_cmdWord .., nField_cmdWord ..⟩
theorem half (l : Nat) : Statement (.half l) := ⟨opField_cmdWord .., rsvField_cmdWord .., nField_cmdWord ..⟩
theorem center (l : Nat) : Statement (.center l) := ⟨opField_cmdWord .., rsvField_cmdWord .., nField_cmdWord ..⟩
theorem meters : Statement .meters := ⟨opField_cmdWord .., rsvField_cmdWord .., nField_cmdWord ..⟩
theorem encode (l : Nat) : Statement (.encode l) := ⟨opField_cmdWord .., rsvField_cmdWord .., nField_cmdWord ..⟩
theorem decode : Statement .decode := ⟨opField_cmdWord .., rsvField_cmdWord .., nField_cmdWord ..⟩

end Sys2Proof.Laws.WordFields
end

