-- ==== Sys2Proof/Laws/Reference.lean ====
section
/-! SUPPORT. The reference choice of COS64 and HYPOT64 (00_scope R14: correctly rounded), for the tests alone: the machine's
own COS64 and HYPOT64 stay free. The cosine answers only where an enclosing interval rounds to one value at both ends. -/

namespace Sys2Proof.Reference

open Sys2Proof.Machine

/-- The integer square root, one bit a step from bit b − 1 down. -/
def isqrt (n : Nat) : Nat → Nat → Nat
  | 0, r => r
  | b + 1, r => isqrt n b (if (r + 2 ^ b) * (r + 2 ^ b) ≤ n then r + 2 ^ b else r)

/-- The body of the binary64 value nearest to the square root of n, in units of 2^-1074, ties to even. -/
def sqrtBody (n : Nat) : Nat :=
  let sh := n.log2 / 2 - 52
  let k := isqrt (n / 4 ^ sh) 54 0
  let k' := if (2 * k + 1) ^ 2 * 4 ^ sh < 4 * n then k + 1 else if (2 * k + 1) ^ 2 * 4 ^ sh = 4 * n then k + k % 2 else k
  min (sh * 2 ^ 52 + k') infBody

/-- HYPOT64, correctly rounded (R14). -/
def hypot (x y : F64) : F64 :=
  if isInf x || isInf y then fInf false
  else if isNaN x || isNaN y then canonNaN
  else ofBody false (sqrtBody (fMag x ^ 2 + fMag y ^ 2))

/-- Bits after the point in the cosine series. -/
def prec : Nat := 256

/-- The even and the odd terms x^(2k)/(2k)! of the cosine, summed apart, for an x² of `prec` fractional bits; the two sums
change places at each term, so after an odd number of terms the even ones come first. -/
def cosSums (x2 : Nat) : Nat → Nat → Nat → Nat → Nat → Nat × Nat
  | 0, _, _, p, q => (p, q)
  | f + 1, k, t, p, q => cosSums x2 f (k + 1) (t * x2 / 2 ^ prec / ((2 * k + 1) * (2 * k + 2))) (q + t) p

/-- cos x as an integer of `prec` fractional bits, for |x| ≤ 16 and within 2^-200. -/
def cosFixed (x : F64) : Int :=
  let fx := fMag x * 2 ^ prec / 2 ^ 1074
  let (p, q) := cosSums (fx * fx / 2 ^ prec) 71 0 (2 ^ prec) 0 0
  (p : Int) - q

/-- The binary64 value nearest to an integer of `prec` fractional bits. -/
def roundFixed (v : Int) : F64 := round64 (v < 0) (v.natAbs * 2 ^ 1074) (2 ^ prec)

/-- COS64, correctly rounded (R14), where the enclosing interval decides it. -/
def cos? (x : F64) : Option F64 :=
  if !isFinite x then some canonNaN
  else if 16 * 2 ^ 1074 < fMag x then none
  else
    let v := cosFixed x
    let lo := roundFixed (v - 2 ^ 56)
    if lo = roundFixed (v + 2 ^ 56) then some lo else none

/-- COS64 for a test: a NaN where the reference is not decided, so that no vector can pass on it by chance. -/
def cos (x : F64) : F64 := (cos? x).getD canonNaN

end Sys2Proof.Reference
end

