-- ==== Sys2Proof/Laws/Registers.lean ====
section
/-! SUPPORT. The register map: indices and registers name each other, and a register reads back what was written. -/

namespace Sys2Proof.Machine

theorem regAt_indexOf (r : Reg) : regAt (indexOf r) = some r := by
  cases r with
  | code j => revert j; decide
  | _ => rfl

theorem indexOf_of_regAt {idx : RegIndex} {r : Reg} (h : regAt idx = some r) : indexOf r = idx := by
  have all : ∀ idx : RegIndex, ∀ r ∈ regAt idx, indexOf r = idx := by decide +kernel
  exact all idx r h

theorem regAt_eq_some_iff {idx : RegIndex} {r : Reg} : regAt idx = some r ↔ idx = indexOf r :=
  ⟨fun h => (indexOf_of_regAt h).symm, fun h => h ▸ regAt_indexOf r⟩

/-- What a register of the RW class reads after a write of d: the bits that fit (20_memory R52, R53). -/
theorem readReg_writeReg_self (d : PortWord) (s : State) {r : Reg} (h : accessOf r = .rw) :
    readReg (writeReg d s r) r = (d.setWidth (widthOf r)).setWidth 64 := by
  cases r <;> simp only [accessOf, reduceCtorEq] at h <;> simp only [readReg, writeReg, widthOf, BitVec.setWidth_eq]
  rename_i j
  rw [slot_setSlot, if_pos ⟨rfl, j.isLt⟩]

/-- A write changes what no other register reads. -/
theorem readReg_writeReg_other (d : PortWord) (s : State) {r r' : Reg} (h : r' ≠ r) :
    readReg (writeReg d s r) r' = readReg s r' := by
  cases r <;> cases r' <;> first
    | rfl
    | exact absurd rfl h
    | skip
  rename_i i j
  have hij : ¬ i.val = j.val := fun he => h (congrArg Reg.code (Fin.ext he.symm))
  simp only [readReg, writeReg, slot_setSlot, hij, false_and, if_false]

end Sys2Proof.Machine
end

