-- ==== Sys2Proof/Machine/AsmText.lean ====
section
/-! DEFINITION. Reading the text of a host program (30_encoding R77 to R79). What the spec leaves open of the notation is DESIGN
CHOICE, log entry 13: what stands between the words of a line, the form of digits, literals, strings and the j of `CODE[j]`,
and that a value fits 64 bits. -/

namespace Sys2Proof.Machine

/-! ## Pieces of a line -/

/-- A text without the spaces at its ends. -/
def trim (cs : List Char) : List Char :=
  ((cs.dropWhile (· == ' ')).reverse.dropWhile (· == ' ')).reverse

/-- The parts of a text between its commas. -/
def splitCommas : List Char → List (List Char)
  | [] => [[]]
  | c :: cs =>
    match splitCommas cs with
    | [] => []
    | w :: ws => if c = ',' then [] :: w :: ws else (c :: w) :: ws

/-- The operands of a line: none where nothing stands after the name. -/
def operandsOf (rest : List Char) : List (List Char) :=
  if rest.isEmpty then [] else (splitCommas rest).map trim

/-! ## Numbers -/

/-- The value of a digit in a base up to 16. -/
def digitOf (base : Nat) (d : Char) : Option Nat :=
  let v := if d.isDigit then d.toNat - 48
    else if 'a' ≤ d ∧ d ≤ 'f' then d.toNat - 87
    else if 'A' ≤ d ∧ d ≤ 'F' then d.toNat - 55
    else base
  if v < base then some v else none

/-- One digit more. -/
def addDigit (base : Nat) (acc : Option Nat) (d : Char) : Option Nat :=
  match acc, digitOf base d with
  | some a, some v => some (a * base + v)
  | _, _ => none

/-- A whole text of digits, at least one. -/
def digits (base : Nat) (cs : List Char) : Option Nat :=
  if cs.isEmpty then none else cs.foldl (addDigit base) (some 0)

/-- A decimal integer or a `0x` hexadecimal one (R77, R78). -/
def intLiteral : List Char → Option Nat
  | '0' :: 'x' :: ds => digits 16 ds
  | ds => digits 10 ds

/-- A decimal integer with a sign. -/
def signedDigits : List Char → Option Int
  | '-' :: ds => (digits 10 ds).map fun n => -(n : Int)
  | '+' :: ds => (digits 10 ds).map fun n => (n : Int)
  | ds => (digits 10 ds).map fun n => (n : Int)

/-- The exponent of a decimal literal, 0 where it has none. -/
def exponentOf : List Char → Option Int
  | [] => some 0
  | _ :: ds => signedDigits ds

/-- The digits after the point: none where there is no point, at least one after it. -/
def fractionOf : List Char → Option (List Char)
  | [] => some []
  | [_] => none
  | _ :: ds => some ds

/-- The binary64 value nearest to an unsigned decimal literal (R78). -/
def unsignedF64 (neg : Bool) (cs : List Char) : Option F64 :=
  let mant := cs.takeWhile (· != 'e')
  let whole := mant.takeWhile (· != '.')
  match digits 10 whole, fractionOf (mant.dropWhile (· != '.')), exponentOf (cs.dropWhile (· != 'e')) with
  | some _, some frac, some e => (digits 10 (whole ++ frac)).map fun m => ofDecimal neg m (e - frac.length)
  | _, _, _ => none

/-- The binary64 value nearest to a decimal literal (R78). -/
def decimalF64 : List Char → Option F64
  | '-' :: cs => unsignedF64 true cs
  | cs => unsignedF64 false cs

/-- An integer that fits the 64 bits of the port. -/
def wordLiteral (cs : List Char) : Option PortWord :=
  match intLiteral cs with
  | some n => if n < 2 ^ 64 then some (BitVec.ofNat 64 n) else none
  | none => none

/-- A value: an integer, or `f64(x)` (R78). -/
def valueOf : List Char → Option PortWord
  | 'f' :: '6' :: '4' :: '(' :: cs => if cs.getLast? = some ')' then decimalF64 cs.dropLast else none
  | cs => wordLiteral cs

/-! ## Names -/

/-- The register names of 10_state R21. -/
def namedRegs : List (String × Reg) :=
  [("CMD", .cmd), ("STATUS", .status), ("CONFIG", .config), ("LAT_IN", .latIn), ("LON_IN", .lonIn)] ++
  [("QLAT", .qlat), ("QLON", .qlon), ("SYM", .sym), ("CHAR", .char), ("CODE_LEN", .codeLen)] ++
  [("CTR_LAT", .ctrLat), ("CTR_LON", .ctrLon), ("HLAT_DEG", .hlatDeg), ("HLON_DEG", .hlonDeg)] ++
  [("MPD_LAT", .mpdLat), ("MPD_LON", .mpdLon), ("HLAT_M", .hlatM), ("HLON_M", .hlonM), ("ERR_M", .errM)]

/-- The register a name stands for (R78); `CODE[j]` is slot j. The rule gives no base for j: it is read in decimal digits only.
DESIGN CHOICE, log entry 13. -/
def regOf : List Char → Option Reg
  | 'C' :: 'O' :: 'D' :: 'E' :: '[' :: cs =>
    match digits 10 cs.dropLast with
    | some j => if h : j < 18 ∧ cs.getLast? = some ']' then some (.code ⟨j, h.1⟩) else none
    | none => none
  | cs => namedRegs.lookup (String.ofList cs)

/-- The mnemonics of R77. -/
def namedMnemonics : List (String × Mnemonic) :=
  [("NOP", .NOP), ("NORM", .NORM), ("DENORM", .DENORM), ("CLRQ", .CLRQ), ("ILV", .ILV), ("DILV", .DILV), ("MAP", .MAP)] ++
  [("UNMAP", .UNMAP), ("HALF", .HALF), ("CENTER", .CENTER), ("METERS", .METERS), ("ENCODE", .ENCODE), ("DECODE", .DECODE)]

/-! ## Lines -/

/-- A value of the notation, or no line. -/
def orNotALine {α : Type} : Option α → Except AsmError α
  | some a => .ok a
  | none => .error .notALine

/-- `WR REG, value` (R78). -/
def readWr : List (List Char) → Option AsmLine
  | [r, v] =>
    match regOf r, valueOf v with
    | some r, some v => some (.wr r v)
    | _, _ => none
  | _ => none

/-- `RD REG` (R78). -/
def readRd : List (List Char) → Option AsmLine
  | [r] => (regOf r).map .rd
  | _ => none

/-- `WRC "s"` (R79): the bytes between the quotes, each an ASCII character. -/
def readWrc : List Char → Option AsmLine
  | '"' :: cs =>
    if cs.getLast? = some '"' ∧ cs.all fun d => decide (d.toNat < 128) then
      some (.wrc (cs.dropLast.map fun d => BitVec.ofNat 8 d.toNat))
    else none
  | _ => none

/-- `WRCOORD lat, lon` (R79). -/
def readWrcoord : List (List Char) → Option AsmLine
  | [a, b] =>
    match decimalF64 a, decimalF64 b with
    | some a, some b => some (.wrcoord a b)
    | _, _ => none
  | _ => none

/-- `SETL n` (R79). -/
def readSetl : List (List Char) → Option AsmLine
  | [n] => (wordLiteral n).map .setl
  | _ => none

/-- A mnemonic and its operands (R77); how many there may be, and how large, is `asmCommand`'s. -/
def readCommand (name : List Char) (ops : List (List Char)) : Option AsmLine :=
  match namedMnemonics.lookup (String.ofList name), ops.mapM intLiteral with
  | some m, some ns => some (.command m ns)
  | _, _ => none

/-- The line a text stands for (R77 to R79). -/
def readLine (text : String) : Except AsmError AsmLine :=
  let cs := trim text.toList
  let name := cs.takeWhile (· != ' ')
  let rest := trim (cs.dropWhile (· != ' '))
  let ops := operandsOf rest
  orNotALine
    (if name = "WR".toList then readWr ops
    else if name = "RD".toList then readRd ops
    else if name = "WRC".toList then readWrc rest
    else if name = "WRCOORD".toList then readWrcoord ops
    else if name = "SETL".toList then readSetl ops
    else readCommand name ops)

/-- The port events of a host program, or the error of its first bad line. -/
def assembleText : List String → Except AsmError (List PortEvent)
  | [] => .ok []
  | line :: lines =>
    match readLine line with
    | .error e => .error e
    | .ok l =>
      match assemble l, assembleText lines with
      | .error e, _ => .error e
      | .ok _, .error e => .error e
      | .ok es, .ok fs => .ok (es ++ fs)

end Sys2Proof.Machine
end

