-- ==== Sys2Proof/Tests/Slice0.lean ====
section
/-! SUPPORT. Tests of the model against the spec's own words and vectors (95_test_vectors), and a witness for the hypotheses of
every statement. Expected values are the spec's; METERS and DECODE use the reference COS64 and HYPOT64 of 00_scope R14. -/

namespace Sys2Proof.Tests

set_option Elab.async false

open Sys2Proof.Machine Sys2Proof.Spec

/-! ## Small states -/

/-- The block after reset with a code in the buffer. -/
def coded (bytes : List CharByte) (len : BitVec 8) : State :=
  { State.reset with code := fillSlots (fun j => bytes.getD j 0) 18 State.reset.code, codeLen := len }

/-- The block after reset with accesses pending. -/
def pending (es : List PortEvent) : State := { State.reset with port := es }

/-- The block after reset with an input coordinate. -/
def located (lat lon : F64) : State := { State.reset with latIn := lat, lonIn := lon }

/-- The block after reset with a fixed-point coordinate. -/
def fixedAt (q r : Fixed) : State := { State.reset with qlat := q, qlon := r }

/-- One step, or the state itself where there is none. -/
def next (s : State) : State :=
  match step s with
  | .next t => t
  | .fault _ => s
  | .refused _ => s

/-- The outcome is this next state. -/
def isNext (o : Host.Outcome State Fault Refusal) (t : State) : Bool :=
  match o with
  | .next u => decide (u = t)
  | .fault _ => false
  | .refused _ => false

theorem eq_next {o : Host.Outcome State Fault Refusal} {t : State} (h : isNext o t = true) : o = .next t := by
  cases o with
  | next u => exact congrArg _ (of_decide_eq_true h)
  | fault _ => cases h
  | refused _ => cases h

/-- The metric registers with the reference COS64 and HYPOT64 (00_scope R14). -/
def refMetrics (lat hl ho : F64) : State :=
  withMetrics (cosLimit Reference.cos) (hypotLimit Reference.hypot) lat hl ho State.reset

/-- f64(1.286785) and f64(103.854503). -/
def singaporeLat : F64 := 0x3FF496ABDE3FBBD8#64
def singaporeLon : F64 := 0x4059F6B02D59D55E#64

/-- A quiet and a signalling NaN of the vectors. -/
def quietNaN : F64 := 0x7FF8000000000000#64
def signallingNaN : F64 := 0xFFF0000000000001#64

/-! ## WellFormed: an operand must fit N (30_encoding R71, R77) -/

theorem test_ilv_256_ill_formed : (Instr.ilv 256).wellFormed = false := by decide
theorem test_dilv_256_ill_formed : (Instr.dilv 256).wellFormed = false := by decide
theorem test_half_256_ill_formed : (Instr.half 256).wellFormed = false := by decide
theorem test_center_256_ill_formed : (Instr.center 256).wellFormed = false := by decide
theorem test_encode_256_ill_formed : (Instr.encode 256).wellFormed = false := by decide
theorem test_ilv_255_well_formed : (Instr.ilv 255).wellFormed = true := by decide
theorem test_assembler_refuses_256 : assemble (.command .ENCODE [256]) = .error .operandOutOfRange := by decide
theorem test_assembler_refuses_missing : assemble (.command .HALF []) = .error .missingOperand := by decide
/-- Program P1 of 95_test_vectors 3. -/
theorem test_assembler_p1 : assembleText ["WRCOORD 1.286785, 103.854503", "ENCODE 10", "DECODE", "RD STATUS"] =
    .ok [.write 0x04#6 singaporeLat, .write 0x05#6 singaporeLon, .write 0x00#6 0x0A0B#64, .write 0x00#6 0x000C#64,
      .read 0x01#6] := by decide +kernel
theorem test_assembler_steps : assembleText ["WRC \"AB\"", "WR CODE[17], 0x42", "WR LAT_IN, f64(-33.8688)", "SETL 19"] =
    .ok [.write 0x20#6 0x41#64, .write 0x21#6 0x42#64, .write 0x0A#6 2, .write 0x31#6 0x42#64,
      .write 0x04#6 0xC040EF34D6A161E5#64, .write 0x0A#6 19] := by decide +kernel
theorem test_assembler_refuses_extra : assemble (.command .NOP [0]) = .error .extraOperand := by decide

/-! ## Decode: N in bits 15:8, RSV = 0000 in 7:4, OP in 3:0 (30_encoding R70, R73; 95_test_vectors 2.1) -/

theorem test_decode_nop : decode 0b0000000000000000#16 = .ok (.nop) := by decide
theorem test_decode_norm : decode 0b0000000000000001#16 = .ok (.norm) := by decide
theorem test_decode_denorm : decode 0b0000000000000010#16 = .ok (.denorm) := by decide
theorem test_decode_clrq : decode 0b0000000000000011#16 = .ok (.clrq) := by decide
theorem test_decode_ilv_17 : decode 0b0001000100000100#16 = .ok (.ilv 17) := by decide
theorem test_decode_dilv_5 : decode 0b0000010100000101#16 = .ok (.dilv 5) := by decide
theorem test_decode_map : decode 0b0000000000000110#16 = .ok (.map) := by decide
theorem test_decode_unmap : decode 0b0000000000000111#16 = .ok (.unmap) := by decide
theorem test_decode_half_10 : decode 0b0000101000001000#16 = .ok (.half 10) := by decide
theorem test_decode_center_18 : decode 0b0001001000001001#16 = .ok (.center 18) := by decide
theorem test_decode_meters : decode 0b0000000000001010#16 = .ok (.meters) := by decide
theorem test_decode_encode_255 : decode 0b1111111100001011#16 = .ok (.encode 255) := by decide
theorem test_decode_decode : decode 0b0000000000001100#16 = .ok (.decode) := by decide
theorem test_reject_op_D : decode 0x000D#16 = .error .reservedOpcode := by decide
theorem test_reject_op_E : decode 0x000E#16 = .error .reservedOpcode := by decide
theorem test_reject_op_F : decode 0xFF0F#16 = .error .reservedOpcode := by decide
theorem test_reject_nop_1 : decode 0x0100#16 = .error .operandNotZero := by decide
theorem test_reject_decode_1 : decode 0x010C#16 = .error .operandNotZero := by decide
theorem test_reject_rsv_1 : decode 0x0A1B#16 = .error .reservedField := by decide
theorem test_reject_rsv_F : decode 0x00F4#16 = .error .reservedField := by decide
theorem test_table_word : decodeTableWord 16 0x120B = some (.encode 18) := by decide

/-- 13 words are legal with N = 0 and 5 with N = 1: with 255 such N, the 1288 of 30_encoding R75. -/
theorem test_legal_words :
    ((List.range 256).filter fun b => (decodeTableWord 16 b).isSome).length = 13 ∧
    ((List.range 256).filter fun b => (decodeTableWord 16 (256 + b)).isSome).length = 5 := by decide +kernel

/-! ## The step -/

theorem test_fetch_word_runs_nop : step ((State.reset).withFetchWord 16 0x0000) = .next State.reset :=
  eq_next (by decide +kernel)
theorem test_fetch_word_runs_center :
    (next ((State.reset).withFetchWord 16 0x0009)).qlat = 0x80000000000000#56 := by decide +kernel
theorem test_high_bits_of_cmd_dropped :
    next (pending [.write 0x00#6 0xFFFFFFFFFFFF0000#64]) = State.reset := by decide +kernel
theorem test_illegal_word_status : (next (pending [.write 0x00#6 0xFF0F#64])).status = 0x0014#16 := by decide +kernel
theorem test_write_sym_truncates : (next (pending [.write 0x08#6 0x1FF#64])).sym = 0x1F#5 := by decide +kernel
theorem test_write_status_ignored : (next (pending [.write 0x01#6 0xFFFF#64])).status = 0 := by decide +kernel
theorem test_read_config : (next (pending [.read 0x02#6])).reads = [0x00201238#64] := by decide +kernel
theorem test_read_reserved : (next (pending [.read 0x3F#6])).reads = [0] := by decide +kernel
theorem test_reset_event : next { fixedAt 1 2 with status := 0x0111#16, port := [.reset] } = State.reset := by decide +kernel

/-! ## Binary64 literals (43_precision R165) and rounding -/

theorem test_literal_111132_92 : ofDecimal false 11113292 (-2) = c111132_92 := by decide +kernel
theorem test_literal_559_82 : ofDecimal false 55982 (-2) = c559_82 := by decide +kernel
theorem test_literal_1_175 : ofDecimal false 1175 (-3) = c1_175 := by decide +kernel
theorem test_literal_1_286785 : ofDecimal false 1286785 (-6) = singaporeLat := by decide +kernel
theorem test_literal_subnormal : ofDecimal false 5 (-324) = 1 := by decide +kernel
theorem test_rad : radPerDeg = 0x3F91DF46A2529D39#64 := by decide +kernel
theorem test_phi_45 : phi 0x4046800000000000#64 = 0x3FE921FB54442D18#64 := by decide +kernel

/-! ## One step of each command (95_test_vectors 2.2 to 2.13) -/

/-- 2.11. -/
theorem test_nop_after_error : (cmd .nop { State.reset with status := 0x0211#16 }).status = 0x0010#16 := by decide +kernel
theorem test_norm_singapore : (cmd .norm (located singaporeLat singaporeLon)).qlat = 0x7E2B7EF1EEF500#56 ∧
    (cmd .norm (located singaporeLat singaporeLon)).qlon = 0xC9DA22A321A8E0#56 := by decide +kernel
theorem test_norm_edges : (cmd .norm (located 0xC056800000000000#64 0xC0667FFFFFFFFFFF#64)).qlat = 0xFFFFFFFFFFFFFF#56 ∧
    (cmd .norm (located 0xC056800000000000#64 0xC0667FFFFFFFFFFF#64)).qlon = 5 := by decide +kernel
theorem test_denorm_singapore :
    (cmd .denorm (fixedAt 0x7E2B7EF1EEF500#56 0xC9DA22A321A8E0#56)).ctrLat = 0x3FF496ABDE3FBBC0#64 ∧
    (cmd .denorm (fixedAt 0x7E2B7EF1EEF500#56 0xC9DA22A321A8E0#56)).ctrLon = 0x4059F6B02D59D560#64 := by decide +kernel
theorem test_denorm_edges : (cmd .denorm (fixedAt 0x80000000000000#56 0xFFFFFFFFFFF800#56)).ctrLat = 0 ∧
    (cmd .denorm (fixedAt 0x80000000000000#56 0xFFFFFFFFFFF800#56)).ctrLon = 0x40667FFFFFFFFE98#64 := by decide +kernel
theorem test_clrq : cmd .clrq { fixedAt 0x7E2B7EF1EEF500#56 0xC9DA22A321A8E0#56 with status := 0x0011#16 } =
    { State.reset with status := 0x0010#16 } := by decide +kernel
/-- 2.5, last row. -/
theorem test_ilv_singapore : (List.range 18).map (fun j =>
      (cmd (.ilv j) (fixedAt 0x7E2B7EF1EEF500#56 0xC9DA22A321A8E0#56)).sym.toNat) =
    [22, 23, 11, 10, 13, 19, 8, 29, 11, 19, 14, 16, 22, 23, 2, 22, 27, 22] := by decide +kernel
theorem test_ilv_18 : cmd (.ilv 18) State.reset = { State.reset with status := 0x0012#16 } := by decide +kernel
theorem test_dilv_odd : cmd (.dilv 1) { State.reset with sym := 10 } =
    { State.reset with sym := 10, qlon := 0x18000000000000#56 } := by decide +kernel
theorem test_dilv_ors : cmd (.dilv 0) { fixedAt 0x40000000000000#56 0xC0000000000000#56 with sym := 31 } =
    { fixedAt 0xC0000000000000#56 0xE0000000000000#56 with sym := 31 } := by decide +kernel
theorem test_map : (cmd .map { State.reset with sym := 21 }).char = 0x56#8 ∧
    (cmd .map { State.reset with sym := 26 }).char = 0x32#8 := by decide +kernel
theorem test_unmap : (cmd .unmap { State.reset with char := 0x35#8 }).sym = 29 := by decide +kernel
theorem test_unmap_lower_case : cmd .unmap { State.reset with char := 0x61#8, sym := 9 } =
    { State.reset with char := 0x61#8, sym := 9, status := 0x0011#16 } := by decide +kernel
theorem test_half_10 : cmd (.half 10) State.reset =
    { State.reset with hlatDeg := 0x3EC6800000000000#64, hlonDeg := 0x3ED6800000000000#64 } := by decide +kernel
theorem test_half_19 : cmd (.half 19) State.reset = { State.reset with status := 0x0012#16 } := by decide +kernel
theorem test_center_1 : cmd (.center 1) (fixedAt 0x40000000000000#56 0xC0000000000000#56) =
    fixedAt 0x60000000000000#56 0xD0000000000000#56 := by decide +kernel
theorem test_center_wraps : cmd (.center 0) (fixedAt 0xFFFFFFFFFFFFFF#56 0xFFFFFFFFFFFFFF#56) =
    fixedAt 0x7FFFFFFFFFFFFF#56 0x7FFFFFFFFFFFFF#56 := by decide +kernel
/-- 2.10, the row of 22.5. -/
theorem test_meters : refMetrics 0x4036800000000000#64 0x4036800000000000#64 0x4036800000000000#64 =
    { State.reset with
      mpdLat := 0x40FB09111467BFFC#64
      mpdLon := 0x40F8FA3B5CB85119#64
      hlatM := 0x414302600258F2FD#64
      hlonM := 0x41418FF1BD319906#64
      errM := 0x4149E156DD881DFC#64 } := by decide +kernel
theorem test_meters_infinite : (cmd .meters { State.reset with ctrLat := 0x7FF0000000000000#64 }).errM = quietNaN := by
  decide +kernel
/-- `WXLKNTI5LT`. -/
def singaporeCode : List CharByte := [0x57, 0x58, 0x4C, 0x4B, 0x4E, 0x54, 0x49, 0x35, 0x4C, 0x54]
theorem test_encode : (cmd (.encode 10) (located singaporeLat singaporeLon)).code = (coded singaporeCode 10).code ∧
    (cmd (.encode 10) (located singaporeLat singaporeLon)).codeLen = 10 := by decide +kernel
theorem test_encode_order : (cmd (.encode 19) (located quietNaN 0)).status = 0x0012#16 ∧
    (cmd (.encode 10) (located 0 signallingNaN)).status = 0x0013#16 := by decide +kernel
theorem test_decode_run : (cmd .decode (coded singaporeCode 10)).qlat = 0x7E2B7EC0000000#56 ∧
    (cmd .decode (coded singaporeCode 10)).ctrLon = 0x4059F6B037800000#64 ∧
    refMetrics 0x3FF496AE10000000#64 0x3EC6800000000000#64 0x3ED6800000000000#64 =
      { State.reset with
        mpdLat := 0x40FAFEED5BC4A6A8#64
        mpdLon := 0x40FAFD2F315ABAF8#64
        hlatM := 0x3FD2FB3EE486452E#64
        hlonM := 0x3FE2FA052EB3CB76#64
        errM := 0x3FE537B4AED8C4B4#64 } := by decide +kernel
/-- `AB1C`, and a length of 19 before an invalid character. -/
theorem test_decode_errors : (cmd .decode (coded [0x41, 0x42, 0x31, 0x43] 4)).status = 0x0211#16 ∧
    (cmd .decode (coded [0x31] 19)).status = 0x0012#16 := by decide +kernel

/-! ## Witnesses: concrete inputs that meet each statement's hypotheses together -/

theorem witness_DecodeOfEncodedCommand : (Instr.encode 255).wellFormed = true ∧ (Instr.ilv 0).wellFormed = true := by decide +kernel
theorem witness_EncodeOfDecodedWord : decode 0xFF0B#16 = .ok (.encode 255) ∧ decode 0x0000#16 = .ok .nop := by decide +kernel
theorem witness_DecodingFollowsTheOpcodeMap : ∀ i, decode { State.reset with cmd := 0x000D#16 }.cmd ≠ .ok i := by
  intro i h; cases h
theorem witness_StepRunsIssuedCommand : (pending [.write 0x00#6 0xFFFFFFFFFFFF0A0B#64, .reset]).port = .write 0x00#6 0xFFFFFFFFFFFF0A0B#64 :: [.reset] ∧
    decode ((0xFFFFFFFFFFFF0A0B#64).setWidth 16) = .ok (.encode 10) := by decide +kernel
theorem witness_StepOfIllegalWord : (pending [.write 0x00#6 0x000D#64]).port = .write 0x00#6 0x000D#64 :: [] ∧
    spellsNoCommand ((0x000D#64).setWidth 16) ∧ spellsNoCommand ((0x0010#64).setWidth 16) ∧
    spellsNoCommand ((0x010C#64).setWidth 16) := by
  unfold spellsNoCommand; decide +kernel
theorem witness_HostWriteStoresLowBits : (pending [.write 0x00#6 1]).port = .write 0x00#6 1 :: [] ∧
    (pending [.write 0x31#6 1]).port = .write 0x31#6 1 :: [] ∧ writableWidth 0x31 = 8 ∧ writableWidth 0x04 = 64 ∧
    (pending [.write 0x32#6 1]).port = .write 0x32#6 1 :: [] ∧ writableWidth 0x32 = 0 ∧ writableWidth 0x01 = 0 := by decide +kernel
theorem witness_HostReadHasNoSideEffect : (pending [.read 0x3F#6, .reset]).port = .read 0x3F#6 :: [.reset] := by decide +kernel
theorem witness_ReservedIndicesAreInert : reservedIndex 0x03 ∧ reservedIndex 0x0B ∧ reservedIndex 0x0F ∧ reservedIndex 0x19 ∧ reservedIndex 0x1F ∧
    reservedIndex 0x32 ∧ reservedIndex 0x3F ∧ (pending [.write 0x03#6 1]).port = .write 0x03#6 1 :: [] ∧
    (pending [.read 0x3F#6]).port = .read 0x3F#6 :: [] := by
  unfold reservedIndex; decide +kernel
theorem witness_ResetEventRestoresResetValues : (pending [.reset, .read 0]).port = .reset :: [.read 0] := by decide +kernel
theorem witness_LaterAccessesHaveNoEffect : 1 ≤ (pending [.write 0x06#6 1]).port.length ∧
    Sys2Proof.core.run 1 (pending [.write 0x06#6 1]) = .next (fixedAt 1 0) := ⟨by decide, rfl⟩
theorem witness_IdleBlockKeepsItsState : State.reset.port = [] := rfl
theorem witness_StepKeepsStatusGood : StatusInv (pending [.write 0x00#6 0x000D#64]) ∧
    step (pending [.write 0x00#6 0x000D#64]) = .next { State.reset with status := 0x0014#16, cmd := 0x000D#16 } := 
  ⟨by constructor <;> decide, eq_next (by decide +kernel)⟩
theorem witness_StickyIsClearedOnlyByReset : issue { State.reset with cmd := 0x000D#16 } = .next { State.reset with cmd := 0x000D#16, status := 0x0014#16 } ∧
    errOf (0x0014#16) ≠ 0 ∧ issue State.reset = .next State.reset ∧ errOf State.reset.status = 0 ∧
    step { State.reset with status := 0x0014#16 } = .next { State.reset with status := 0x0014#16 } ∧
    State.reset.port.head? ≠ some .reset ∧ stickyOf (0x0014#16) = true ∧
    step { pending [.reset] with status := 0x0014#16 } = .next State.reset ∧
    (pending [.reset]).port.head? = some .reset := 
  ⟨eq_next (by decide +kernel), by decide, eq_next (by decide +kernel), by decide, eq_next (by decide +kernel),
    by decide, by decide, eq_next (by decide +kernel), rfl⟩
theorem witness_ErrorsArePrecise : exec (.ilv 18) State.reset = .next { State.reset with status := 0x0012#16 } ∧
    issue { State.reset with cmd := 0x1204#16 } = .next { State.reset with cmd := 0x1204#16, status := 0x0012#16 } ∧
    errOf (0x0012#16) ≠ 0 := 
  ⟨eq_next (by decide +kernel), eq_next (by decide +kernel), by decide⟩
theorem witness_EposIsTheFirstInvalidPosition : exec .decode (coded [0x41, 0x31] 2) = .next { coded [0x41, 0x31] 2 with status := 0x0111#16 } ∧
    errOf (0x0111#16) = 1 ∧ exec .nop State.reset = .next State.reset ∧
    issue { State.reset with cmd := 0x000D#16 } = .next { State.reset with cmd := 0x000D#16, status := 0x0014#16 } ∧
    spellsNoCommand 0x000D#16 := 
  ⟨eq_next (by decide +kernel), by decide, eq_next (by decide +kernel),
    eq_next (by decide +kernel), by unfold spellsNoCommand; decide⟩
theorem witness_ErrorCauses : issue { coded [0x41, 0x31] 2 with cmd := 0x000C#16 } =
      .next { coded [0x41, 0x31] 2 with cmd := 0x000C#16, status := 0x0111#16 } ∧
    errOf (0x0111#16) = 1 ∧ decode 0x000C#16 = .ok .decode ∧
    issue { State.reset with cmd := 0x0007#16 } = .next { State.reset with cmd := 0x0007#16, status := 0x0011#16 } := 
  ⟨eq_next (by decide +kernel), by decide, by decide, eq_next (by decide +kernel)⟩
theorem witness_StickyTellsWhetherTheRunHadAnError : StatusInv State.reset ∧ State.reset.noResetPending ∧
    Sys2Proof.core.run 1 State.reset = .next State.reset ∧ stickyOf State.reset.status = false ∧
    StatusInv (pending [.write 0x00#6 0x000D#64]) ∧ (pending [.write 0x00#6 0x000D#64]).noResetPending ∧
    Sys2Proof.core.run 1 (pending [.write 0x00#6 0x000D#64]) =
      .next { State.reset with status := 0x0014#16, cmd := 0x000D#16 } ∧ stickyOf (0x0014#16) = true := by
  refine ⟨by constructor <;> decide, by simp [State.noResetPending, State.reset], rfl, by decide,
    by constructor <;> decide, by simp [State.noResetPending, pending], rfl, by decide⟩
theorem witness_OnlyTheNamedCommandsWrite : exec (.center 0) State.reset = .next (fixedAt 0x80000000000000#56 0x80000000000000#56) ∧
    (fixedAt 0x80000000000000#56 0x80000000000000#56).qlat ≠ State.reset.qlat := 
  ⟨eq_next (by decide +kernel), by decide⟩
theorem witness_NormWritesFixedPoint : (isNaN (located 0 signallingNaN).lonIn = true) ∧
    isNaN (located 0x7FF0000000000000#64 0x0000000000000001#64).latIn = false ∧
    isNaN (located 0x7FF0000000000000#64 0x0000000000000001#64).lonIn = false := by decide +kernel
theorem witness_OutOfRangeDegreesAreClamped : isNaN (located 0x7FF0000000000000#64 0x7FF0000000000000#64).latIn = false ∧
    LeF 0x4056800000000000#64 0x7FF0000000000000#64 ∧ LeF 0x4056800000000000#64 0x4056800000000000#64 ∧
    LeF 0xFFF0000000000000#64 0xC056800000000000#64 ∧ LeF 0xC066800000000000#64 0xC066800000000000#64 ∧
    LeF 0x4066800000000000#64 0x4066800000000000#64 := 
  ⟨by decide, .inr (.inl (by decide)), .inr (.inr ⟨by decide, by decide, le_rfl⟩), .inl (by decide),
    .inr (.inr ⟨by decide, by decide, le_rfl⟩), .inr (.inr ⟨by decide, by decide, le_rfl⟩)⟩
theorem witness_NormalizationIsMonotone : isNaN (located 0 0).latIn = false ∧ isNaN (located 0x7FF0000000000000#64 0x7FF0000000000000#64).latIn = false ∧
    exec .norm (located 0 0) = .next { located 0 0 with qlat := 0x80000000000000#56, qlon := 0x80000000000000#56 } ∧
    exec .norm (located 0x7FF0000000000000#64 0x7FF0000000000000#64) =
      .next { located 0x7FF0000000000000#64 0x7FF0000000000000#64 with qlon := 0xFFFFFFFFFFFFFF#56 } ∧
    LeF 0 0x7FF0000000000000#64 ∧
    exec .denorm (fixedAt 0x80000000000000#56 0x80000000000000#56) =
      .next (fixedAt 0x80000000000000#56 0x80000000000000#56) ∧
    exec .denorm (fixedAt 0xFFFFFFFFFFFFFF#56 0xFFFFFFFFFFFFFF#56) =
      .next { fixedAt 0xFFFFFFFFFFFFFF#56 0xFFFFFFFFFFFFFF#56 with
        ctrLat := 0xC056800000000000#64
        ctrLon := 0x4066800000000000#64 } ∧
    (fixedAt 0x80000000000000#56 0).qlat.toNat ≤ (fixedAt 0xFFFFFFFFFFFFFF#56 0).qlat.toNat := 
  ⟨by decide, by decide, eq_next (by decide +kernel), eq_next (by decide +kernel), .inr (.inl (by decide)),
    eq_next (by decide +kernel), eq_next (by decide +kernel), by decide⟩

/-- The value of a pattern that is a whole number of ones, either sign. -/
theorem abs_fVal_of_mag {x : F64} {n : Nat} (h : fMag x = n * 2 ^ 1074) : |fVal x| = n := by
  rw [abs_fVal, ← fMag_eq, h, Nat.cast_mul, Nat.cast_pow, Nat.cast_two, ← unitsPerOne_eq, mul_div_assoc,
    div_self unitsPerOne_ne_zero, mul_one]

/-- The corner (−90, 180) is in range. -/
theorem corner_in_range : isFinite (located 0xC056800000000000#64 0x4066800000000000#64).latIn = true ∧
    isFinite (located 0xC056800000000000#64 0x4066800000000000#64).lonIn = true ∧
    |fVal (located 0xC056800000000000#64 0x4066800000000000#64).latIn| ≤ 90 ∧
    |fVal (located 0xC056800000000000#64 0x4066800000000000#64).lonIn| ≤ 180 := by
  refine ⟨by decide, by decide, le_of_eq ?_, le_of_eq ?_⟩
  · show |fVal 0xC056800000000000#64| = 90
    rw [abs_fVal_of_mag (n := 90) (by decide +kernel)]; norm_num
  · show |fVal 0x4066800000000000#64| = 180
    rw [abs_fVal_of_mag (n := 180) (by decide +kernel)]; norm_num

theorem witness_NormDenormRoundTrip : isFinite (located 0xC056800000000000#64 0x4066800000000000#64).latIn = true ∧
    isFinite (located 0xC056800000000000#64 0x4066800000000000#64).lonIn = true ∧
    |fVal (located 0xC056800000000000#64 0x4066800000000000#64).latIn| ≤ 90 ∧
    |fVal (located 0xC056800000000000#64 0x4066800000000000#64).lonIn| ≤ 180 := corner_in_range
theorem witness_IlvBuildsTheSymbol : 17 < 18 ∧ 17 ≤ 17 ∧ (0x1204#16).toNat % 16 = 4 := by decide +kernel
theorem witness_DilvOrsTheFields : 17 < 18 ∧ 17 ≤ 17 ∧ (0x1205#16).toNat % 16 = 5 := by decide +kernel
theorem witness_LowBitsAreNeverRead : (fixedAt 0x7FF#56 0).qlat >>> 11 = (fixedAt 0 0x7FF#56).qlat >>> 11 ∧
    (fixedAt 0x7FF#56 0).qlon >>> 11 = (fixedAt 0 0x7FF#56).qlon >>> 11 ∧ fixedAt 0x7FF#56 0 ≠ fixedAt 0 0x7FF#56 := by decide +kernel
theorem witness_DilvRecoversTheLowerCorner : 18 ≤ 18 ∧ State.reset.qlat = 0 ∧ State.reset.qlon = 0 := by decide +kernel
theorem witness_UnmapFindsTheSymbol : 0x37#8 = charOf 31 ∧ 0x41#8 = charOf 0 ∧ ¬ inAlphabet 0x38#8 ∧ ¬ inAlphabet 0x5B#8 ∧ ¬ inAlphabet 0x31#8 := by
  unfold inAlphabet; decide
theorem witness_AlphabetIsClosed : inAlphabet 0x41#8 ∧ inAlphabet 0x5A#8 ∧ inAlphabet 0x32#8 ∧ inAlphabet 0x37#8 ∧ ¬ inAlphabet 0x40#8 := by
  unfold inAlphabet; decide
theorem witness_WrittenCharactersAreInTheAlphabet : exec (.encode 1) (located 0x4056800000000000#64 0xC066800000000000#64) =
      .next { located 0x4056800000000000#64 0xC066800000000000#64 with code := (coded [0x41] 1).code, codeLen := 1 } ∧
    errOf State.reset.status = 0 := 
  ⟨eq_next (by decide +kernel), by decide⟩
theorem witness_HalfWritesExactHalfExtents : 18 < 19 ∧ 18 ≤ 18 ∧ (0x1308#16).toNat % 16 = 8 := by decide +kernel
theorem witness_CenterAddsTheHalfCell : 18 < 19 ∧ 18 ≤ 18 ∧ (0x1309#16).toNat % 16 = 9 := by decide +kernel
theorem witness_PrecisionStrictlyImproves : 17 < 18 ∧ 18 ≤ 18 := by decide +kernel
theorem witness_NonFiniteLatitudeGivesNanMetrics : isFinite { State.reset with ctrLat := 0x7FF0000000000000#64 }.ctrLat = false ∧
    isFinite { State.reset with ctrLat := signallingNaN }.ctrLat = false := by decide +kernel
/-- The premises of its clauses are about the metric registers, a NaN here. -/
theorem witness_ErrorRadiusIsNotNegative : (match exec .meters { State.reset with ctrLat := quietNaN } with
    | .next t => isNaN t.errM
    | .fault _ => false
    | .refused _ => false) = true := by decide +kernel
theorem witness_EncodeWritesTheCode : 18 < 19 ∧ 18 ≤ 18 ∧ isNaN (located quietNaN 0).latIn = true ∧
    isNaN (located 0xFFF0000000000000#64 singaporeLon).latIn = false ∧
    isNaN (located 0xFFF0000000000000#64 singaporeLon).lonIn = false ∧ (0x130B#16).toNat % 16 = 0xB := by decide +kernel
theorem witness_ShorterCodesAreInitialParts : 17 ≤ 18 ∧ isNaN (located singaporeLat singaporeLon).latIn = false ∧
    isNaN (located singaporeLat singaporeLon).lonIn = false := by decide +kernel
theorem witness_EncodeIsTheUnitSequence : 18 ≤ 18 ∧ isNaN (located singaporeLat singaporeLon).latIn = false ∧
    isNaN (located singaporeLat singaporeLon).lonIn = false := by decide +kernel
theorem witness_DecodeWritesTheEstimate : 18 < (coded [] 19).codeLen.toNat ∧
    ((coded [0x41, 0x31] 2).codeLen.toNat ≤ 18 ∧ 1 < (coded [0x41, 0x31] 2).codeLen.toNat ∧
      ¬ inAlphabet (slot (coded [0x41, 0x31] 2).code 1) ∧ ∀ k < 1, inAlphabet (slot (coded [0x41, 0x31] 2).code k)) ∧
    ((coded (List.replicate 18 0x37) 18).codeLen.toNat = 18 ∧
      ∀ j < 18, 31 < 32 ∧ slot (coded (List.replicate 18 0x37) 18).code j = charOf 31) ∧
    (coded [] 0).codeLen.toNat = 0 := by
  unfold inAlphabet; decide +kernel
theorem witness_DecodeIsTheUnitSequence : (coded (List.replicate 18 0x37) 18).codeLen.toNat ≤ 18 ∧
    ∀ j < (coded (List.replicate 18 0x37) 18).codeLen.toNat, inAlphabet (slot (coded (List.replicate 18 0x37) 18).code j) := by
  unfold inAlphabet; decide +kernel
theorem witness_DecodeIgnoresSlotsBeyondTheLength : (∀ j < (coded [0x41, 0x31] 1).codeLen.toNat,
      slot (coded [0x41, 0x42] 1).code j = slot (coded [0x41, 0x31] 1).code j) ∧
    (coded [0x41, 0x42] 1).code ≠ (coded [0x41, 0x31] 1).code ∧ ∃ t, exec .decode (coded [0x41, 0x31] 1) = .next t := ⟨by decide, by decide, exec_total _ _⟩
theorem witness_EncodeDecodeRoundTrip : 18 ≤ 18 ∧ isNaN (located singaporeLat singaporeLon).latIn = false ∧
    isNaN (located singaporeLat singaporeLon).lonIn = false := by decide +kernel
theorem witness_CellContainsTheCoordinate : 1 ≤ 18 ∧ 18 ≤ 18 ∧ isFinite (located 0xC056800000000000#64 0x4066800000000000#64).latIn = true ∧
    isFinite (located 0xC056800000000000#64 0x4066800000000000#64).lonIn = true ∧
    |fVal (located 0xC056800000000000#64 0x4066800000000000#64).latIn| ≤ 90 ∧
    |fVal (located 0xC056800000000000#64 0x4066800000000000#64).lonIn| ≤ 180 := ⟨by decide, le_rfl, corner_in_range⟩
theorem witness_AdditionIsIeee : isFinite c1 = true ∧ isNaN signallingNaN = true ∧ isInf (fInf true) = true ∧
    fVal (fZero true) + fVal (fZero false) = 0 := by
  refine ⟨by decide, by decide, by decide, ?_⟩
  rw [(fVal_eq_zero _).2 (by decide), (fVal_eq_zero _).2 (by decide), add_zero]
theorem witness_MultiplicationIsIeee : isFinite c1 = true ∧ isNaN signallingNaN = true ∧ isInf (fInf true) = true ∧ isNaN (fZero true) = false := by decide +kernel
theorem witness_DivisionIsIeee : isFinite c1 = true ∧ isZero c1 = false ∧ isNaN signallingNaN = true ∧ isInf (fInf true) = true ∧
    isFinite (fZero true) = true ∧ isZero (fZero true) = true := by decide +kernel
theorem witness_IntegerConversionIsRounded : 2 ^ 64 - 1 < 2 ^ 64 := by decide +kernel
theorem witness_WrcWritesTheCodeBuffer : 18 < (List.replicate 19 0x41#8).length ∧ (List.replicate 18 0x41#8).length ≤ 18 ∧
    (pending [setLength 0]).port = [setLength 0] ∧ assemble (.wrc []) = .ok [setLength 0] := by decide +kernel

end Sys2Proof.Tests
end

section
/-! PROOFS. 10_state: what a write to CMD runs, the reset values, and how a command leaves STICKY and EPOS. -/

namespace Sys2Proof.Machine

open Sys2Proof.Spec

/-! ## The fields of a word as numbers, and the words that spell no command (30_encoding R70 to R74) -/

theorem toNat_opField (w : CmdWord) : (opField w).toNat = w.toNat % 16 := by
  simp [opField, BitVec.extractLsb'_toNat]

theorem toNat_rsvField (w : CmdWord) : (rsvField w).toNat = w.toNat / 16 % 16 := by
  simp [rsvField, BitVec.extractLsb'_toNat, Nat.shiftRight_eq_div_pow]

theorem toNat_nField (w : CmdWord) : (nField w).toNat = w.toNat / 256 := by
  have := w.isLt
  simp only [nField, BitVec.extractLsb'_toNat, Nat.shiftRight_eq_div_pow]
  omega

theorem noOperand_eq_ok_iff {n : BitVec 8} {i j : Instr} : noOperand n i = .ok j ↔ n = 0 ∧ i = j := by
  unfold noOperand
  split_ifs with h
  · simp [h]
  · exact ⟨nofun, fun hj => absurd hj.1 h⟩

/-- A word with RSV not 0 is refused whatever else it holds (R72, R74). -/
theorem rsvField_of_decode_ok {w : CmdWord} {i : Instr} (h : decode w = .ok i) : rsvField w = 0 := by
  by_contra hr
  rw [decode, if_pos hr] at h
  cases h

/-- An accepted word has one of the thirteen opcodes, and N = 0 where its command takes no operand (R73, R74). -/
theorem opField_of_decode_ok {w : CmdWord} {i : Instr} (h : decode w = .ok i) :
    (opField w).toNat ∈ [0x4, 0x5, 0x8, 0x9, 0xB] ∨
      ((opField w).toNat ∈ [0x0, 0x1, 0x2, 0x3, 0x6, 0x7, 0xA, 0xC] ∧ nField w = 0) := by
  rw [decode, if_neg (not_not.2 (rsvField_of_decode_ok h))] at h
  split at h
  case h_14 => cases h
  all_goals simp_all [noOperand_eq_ok_iff]

/-- A word that decodes is none of those that spell no command. -/
theorem not_spellsNoCommand_of_decode_ok {w : CmdWord} {i : Instr} (h : decode w = .ok i) : ¬ spellsNoCommand w := by
  have hrsv : w.toNat / 16 % 16 = 0 := by rw [← toNat_rsvField, rsvField_of_decode_ok h]; rfl
  have hn : nField w = 0 → w.toNat / 256 = 0 := fun h0 => by rw [← toNat_nField, h0]; rfl
  have hop := (opField_of_decode_ok h).imp_right (And.imp_right hn)
  rw [toNat_opField] at hop
  simp only [spellsNoCommand, List.mem_cons, List.not_mem_nil, or_false] at hop ⊢
  omega

/-! ## The alphabet: a byte has an index exactly if R140 lists it -/

theorem mem_romTable_iff (c : CharByte) : c ∈ romTable ↔ inAlphabet c := by
  unfold inAlphabet
  revert c; decide +kernel

theorem indexOfChar_eq_none_iff (c : CharByte) : indexOfChar c = none ↔ ¬ inAlphabet c := by
  rw [indexOfChar, Option.map_eq_none_iff, List.idxOf?_eq_none_iff, mem_romTable_iff]

/-! ## Issuing a command -/

theorem issue_of_decode_ok {s : State} {i : Instr} (h : decode s.cmd = .ok i) : issue s = exec i s := by
  rw [issue, h]

/-- A host write to index 0x00 latches the low 16 bits and issues them (R22). -/
theorem hostWrite_cmd (s : State) (d : PortWord) : hostWrite s 0x00#6 d = issue { s with cmd := d.setWidth 16 } := rfl

/-- An issued command raises one error from the state before it, or completes from registers that still hold its STATUS. -/
theorem issue_ends {s t : State} (h : issue s = .next t) :
    (∃ e p, t = raiseErr e p s) ∨ (∃ u, t = complete u ∧ u.status = s.status) := by
  rcases issue_cases s with ⟨i, -, hi⟩ | ⟨_, -, hi⟩ <;> rw [hi] at h
  · rcases exec_cases i s with ⟨e, p, hr⟩ | ⟨u, hu, c⟩
    · rw [hr.outcome] at h; cases h
      exact .inl ⟨e, p, rfl⟩
    · rw [hu] at h; cases h
      exact .inr ⟨u, rfl, c.status⟩
  · cases h
    exact .inl ⟨_, _, rfl⟩

/-! ## STICKY (R25) -/

/-- A command that ends with ERR not OK has set STICKY. -/
theorem issue_sets_sticky {s t : State} (h : issue s = .next t) (he : errOf t.status ≠ 0) :
    stickyOf t.status = true := by
  rcases issue_ends h with ⟨e, p, rfl⟩ | ⟨u, rfl, -⟩
  · rw [raiseErr_status, stickyOf_statusRaised]
  · rw [complete_status, errOf_statusCompleted] at he
    exact absurd rfl he

/-- A command that ends with ERR = OK has left STICKY. -/
theorem issue_keeps_sticky {s t : State} (h : issue s = .next t) (he : errOf t.status = 0) :
    stickyOf t.status = stickyOf s.status := by
  rcases issue_ends h with ⟨e, p, rfl⟩ | ⟨u, rfl, hu⟩
  · rw [raiseErr_status, errOf_statusRaised] at he
    exact absurd he (errValue_ne_zero e)
  · rw [complete_status, stickyOf_statusCompleted, hu]

/-- No access of the host clears STICKY. -/
theorem accept_sticky {e : PortEvent} {s t : State} (h : accept e s = .next t) (he : e ≠ .reset)
    (hs : stickyOf s.status = true) : stickyOf t.status = true := by
  cases e with
  | reset => exact absurd rfl he
  | read idx => cases h; exact hs
  | write idx d =>
    rw [accept] at h
    rcases hostWrite_cases s idx d with ⟨-, hw⟩ | ⟨r, -, -, hw⟩ | ⟨-, hw⟩ <;> rw [hw] at h
    · exact issue_sticky h hs
    · cases h; rw [(writeReg_untouched d s r).1, hs]
    · cases h; exact hs

/-- A step that takes no reset event never clears STICKY. -/
theorem step_sticky {s t : State} (h : step s = .next t) (hr : s.port.head? ≠ some .reset)
    (hs : stickyOf s.status = true) : stickyOf t.status = true := by
  cases hp : s.port with
  | nil => rw [step_nil hp] at h; cases h; exact hs
  | cons e rest =>
    rw [step_cons hp] at h
    exact accept_sticky h (fun he => hr (by rw [hp, he, List.head?_cons])) hs

/-- A step that takes a reset event resets the block. -/
theorem step_reset {s : State} (hr : s.port.head? = some .reset) :
    step s = .next (resetBlock { s with port := s.port.tail }) := by
  rw [step_cons (List.eq_cons_of_mem_head? hr), accept]

/-- Settles O19: how a command ends decides STICKY, no other access clears it, and the reset event puts STATUS to 0. -/
theorem stickyIsClearedOnlyByReset : Obligations.StickyIsClearedOnlyByReset := by
  refine ⟨fun _ _ => issue_sets_sticky, fun _ _ => issue_keeps_sticky, fun _ _ => step_sticky, fun s t h hr => ?_⟩
  rw [step_reset hr] at h
  cases h
  rw [resetBlock_status]
  decide

/-! ## EPOS (R26) -/

/-- A command that is no DECODE with InvalidSymbol leaves EPOS = 0. -/
theorem exec_eposOf_eq_zero {i : Instr} {s t : State} (h : exec i s = .next t)
    (hi : ¬ (i = .decode ∧ errOf t.status = 1)) : eposOf t.status = 0 := by
  rcases exec_cases i s with ⟨e, p, hr⟩ | ⟨u, hu, -⟩
  · rw [hr.outcome] at h; cases h
    rw [raiseErr_status, errOf_statusRaised] at hi
    rw [raiseErr_status, eposOf_statusRaised]
    by_contra hp
    obtain ⟨hdec, rfl⟩ := hr.position hp
    exact hi ⟨hdec, rfl⟩
  · rw [hu] at h; cases h
    rw [complete_status, eposOf_statusCompleted]

/-- A DECODE that raises InvalidSymbol has found an invalid position of a code of at most 18 characters, and EPOS is it. -/
theorem exec_decode_invalidSymbol {s t : State} (h : exec .decode s = .next t) (he : errOf t.status = 1) :
    s.codeLen.toNat ≤ 18 ∧ firstInvalid s.code s.codeLen.toNat = some (eposOf t.status).toNat := by
  by_cases hl : s.codeLen.toNat ≤ 18
  · cases hf : firstInvalid s.code s.codeLen.toNat with
    | none =>
      rw [exec_decode_ok hl hf] at h; cases h
      rw [complete_status, errOf_statusCompleted] at he
      exact absurd he (by decide)
    | some j =>
      rw [exec_decode_invalid hl hf] at h; cases h
      have hj := firstInvalid_lt hf
      rw [raiseErr_status, eposOf_statusRaised, BitVec.toNat_ofNat, Nat.mod_eq_of_lt (by omega)]
      exact ⟨hl, rfl⟩
  · rw [exec_decode_err hl] at h; cases h
    rw [raiseErr_status, errOf_statusRaised] at he
    exact absurd he (by decide)

/-- An illegal word leaves EPOS = 0. -/
theorem issue_eposOf_of_spellsNoCommand {s t : State} (h : issue s = .next t) (hw : spellsNoCommand s.cmd) :
    eposOf t.status = 0 := by
  rcases issue_cases s with ⟨i, hd, -⟩ | ⟨_, -, hi⟩
  · exact absurd hw (not_spellsNoCommand_of_decode_ok hd)
  · rw [hi] at h; cases h
    rw [raiseErr_status, eposOf_statusRaised]

/-- Settles O21: the position DECODE reports is the one `firstInvalid` finds, and every other outcome reports 0. -/
theorem eposIsTheFirstInvalidPosition : Obligations.EposIsTheFirstInvalidPosition := by
  refine ⟨fun i s t h => ⟨exec_eposOf_eq_zero h, ?_⟩, fun _ _ => issue_eposOf_of_spellsNoCommand⟩
  rintro rfl he
  obtain ⟨hl, hf⟩ := exec_decode_invalidSymbol h he
  obtain ⟨hbad, hgood⟩ := firstInvalid_spec hf
  have hlt := firstInvalid_lt hf
  refine ⟨by omega, hlt, (indexOfChar_eq_none_iff _).1 hbad, fun k hk => ?_⟩
  exact not_not.1 (mt (indexOfChar_eq_none_iff _).2 (hgood k hk))

/-! ## The write to CMD (R22) -/

/-- Settles O5: the step takes the write, the write issues the word it latches, and the word runs its command. -/
theorem stepRunsIssuedCommand : Obligations.StepRunsIssuedCommand := by
  refine ⟨fun s d rest i hp hd => ?_, fun _ => rfl, rfl⟩
  rw [step_cons hp, accept, hostWrite_cmd]
  exact issue_of_decode_ok hd

/-! ## The reset values (R35) -/

theorem slot_replicate_zero (j : Nat) : slot (Vector.replicate 18 0) j = 0 := by
  by_cases hj : j < 18
  · rw [slot_of_lt _ hj, Vector.getElem_replicate]
  · exact slot_of_not_lt _ hj

/-- Every index but CONFIG's reads 0 after reset. -/
theorem registerValue_reset {n : Nat} (hn : n ≠ 0x02) : registerValue State.reset n = 0 := by
  unfold registerValue
  split
  case h_2 => exact absurd rfl hn
  case h_19 =>
    split_ifs
    · rw [State.reset, slot_replicate_zero]; rfl
    · rfl
  all_goals rfl

/-- The ROM holds `A` to `Z`, then `2` to `7` (R33, R140). -/
theorem rom_eq_charOf (i : Symbol) : rom i = charOf i.toNat := by
  revert i; decide

/-- Settles O12, register by register. -/
theorem resetValues : Obligations.ResetValues :=
  ⟨rfl, rfl, by decide, fun _ _ => registerValue_reset, rom_eq_charOf⟩

end Sys2Proof.Machine
end

section
/-! PROOFS. 20_memory: the register port as numbers, and what a host write stores and leaves. -/

namespace Sys2Proof.Machine

open Sys2Proof.Spec

/-! ## The register port as numbers (10_state R21, 20_memory R51, R52) -/

theorem toNat_indexOf_code (j : Fin 18) : (indexOf (.code j)).toNat = 0x20 + j.val := by
  rw [indexOf, BitVec.toNat_ofNat, Nat.mod_eq_of_lt (by omega)]

theorem registerValue_code (s : State) (j : Fin 18) : registerValue s (0x20 + j.val) = (slot s.code j.val).toNat := by
  unfold registerValue
  split
  case h_19 => rw [if_pos (by omega), Nat.add_sub_cancel_left]
  all_goals omega

/-- The value at a register's own index is what the port reads there, CMD reading 0 (R52). -/
theorem registerValue_indexOf (s : State) (r : Reg) : registerValue s (indexOf r).toNat = (readReg s r).toNat := by
  cases r with
  | code j => rw [toNat_indexOf_code, registerValue_code, readReg, BitVec.toNat_setWidth_of_le (by decide)]
  | status | qlat | qlon | sym | char | codeLen => exact (BitVec.toNat_setWidth_of_le (by decide)).symm
  | _ => rfl

theorem regAt_eq_none_iff (idx : RegIndex) : regAt idx = none ↔ reservedIndex idx.toNat := by
  unfold reservedIndex
  revert idx; decide +kernel

theorem registerValue_of_reservedIndex (s : State) {n : Nat} (h : reservedIndex n) : registerValue s n = 0 := by
  unfold reservedIndex at h
  have hcode : ¬ (0x20 ≤ n ∧ n ≤ 0x31) := by omega
  unfold registerValue
  split
  case h_19 => exact if_neg hcode
  all_goals omega

/-- A host read returns the value of its index (R51, R52). -/
theorem toNat_hostRead (s : State) (idx : RegIndex) : (hostRead s idx).toNat = registerValue s idx.toNat := by
  rw [hostRead]
  cases h : regAt idx with
  | none => exact (registerValue_of_reservedIndex s ((regAt_eq_none_iff idx).1 h)).symm
  | some r => rw [regAt_eq_some_iff.1 h, registerValue_indexOf]

/-! ## Which indices a host write can store to (R21, R53) -/

theorem writableWidth_indexOf (r : Reg) :
    writableWidth (indexOf r).toNat = if accessOf r = .rw then widthOf r else 0 := by
  cases r with
  | code j => revert j; decide
  | _ => rfl

theorem writableWidth_of_reservedIndex {n : Nat} (h : reservedIndex n) : writableWidth n = 0 := by
  unfold reservedIndex at h
  unfold writableWidth
  split_ifs <;> omega

theorem widthOf_ne_zero (r : Reg) : widthOf r ≠ 0 := by
  cases r <;> exact nofun

/-- The RW registers are those with a writable width. -/
theorem writableWidth_indexOf_ne_zero_iff (r : Reg) : writableWidth (indexOf r).toNat ≠ 0 ↔ accessOf r = .rw := by
  rw [writableWidth_indexOf]
  split_ifs with h
  · simp only [ne_eq, widthOf_ne_zero, not_false_eq_true, h]
  · simp only [ne_eq, not_true_eq_false, h]

/-- Every register but CMD is RW or read-only. -/
theorem accessOf_eq_ro_of_ne_rw {r : Reg} (h : r ≠ .cmd) (hrw : accessOf r ≠ .rw) : accessOf r = .ro := by
  cases r with
  | cmd => exact absurd rfl h
  | status | config => rfl
  | _ => exact absurd rfl hrw

/-! ## What a host write stores, and what it leaves (R53) -/

/-- A write to a read-only register changes nothing. -/
theorem writeReg_of_ro (d : PortWord) (s : State) {r : Reg} (h : accessOf r = .ro) : writeReg d s r = s := by
  cases r with
  | status | config => rfl
  | _ => cases h

/-- An RW register takes the low bits of the data that fit. -/
theorem registerValue_writeReg_self (d : PortWord) (s : State) {r : Reg} (h : accessOf r = .rw) :
    registerValue (writeReg d s r) (indexOf r).toNat = d.toNat % 2 ^ widthOf r := by
  rw [registerValue_indexOf, readReg_writeReg_self d s h, BitVec.toNat_setWidth, BitVec.toNat_setWidth]
  exact Nat.mod_eq_of_lt ((Nat.mod_le _ _).trans_lt d.isLt)

/-- A write to one register changes what no other index reads. -/
theorem hostRead_writeReg_other (d : PortWord) (s : State) {r : Reg} {idx : RegIndex} (h : idx ≠ indexOf r) :
    hostRead (writeReg d s r) idx = hostRead s idx := by
  rw [hostRead, hostRead]
  cases hr : regAt idx with
  | none => rfl
  | some r' =>
    have hne : r' ≠ r := fun he => h (he ▸ regAt_eq_some_iff.1 hr)
    exact readReg_writeReg_other d s hne

theorem registerValue_writeReg_other (d : PortWord) (s : State) {r : Reg} {n : Nat} (hn : n < 64)
    (h : n ≠ (indexOf r).toNat) : registerValue (writeReg d s r) n = registerValue s n := by
  have hidx : (BitVec.ofNat 6 n).toNat = n := by rw [BitVec.toNat_ofNat, Nat.mod_eq_of_lt hn]
  have hne : BitVec.ofNat 6 n ≠ indexOf r := fun he => h (by rw [← he, hidx])
  rw [← hidx, ← toNat_hostRead, ← toNat_hostRead, hostRead_writeReg_other d s hne]

theorem step_write {s : State} {idx : RegIndex} {d : PortWord} {rest : List PortEvent}
    (hp : s.port = .write idx d :: rest) : step s = hostWrite { s with port := rest } idx d :=
  step_cons hp

/-- Settles O7: the register at the index decides; an RW one stores, a read-only or reserved index ignores the write. -/
theorem hostWriteStoresLowBits : Obligations.HostWriteStoresLowBits := by
  intro s idx d rest hp
  rw [step_write hp]
  refine ⟨fun h0 => by rw [h0, hostWrite_cmd], fun h0 => ?_⟩
  rcases hostWrite_cases { s with port := rest } idx d with ⟨hcmd, -⟩ | ⟨r, hr, hne, hw⟩ | ⟨hnone, hw⟩
  · exact absurd (regAt_eq_some_iff.1 hcmd) h0
  · obtain ⟨hstatus, hport, hreads, hcmd⟩ := writeReg_untouched d { s with port := rest } r
    obtain rfl := regAt_eq_some_iff.1 hr
    refine ⟨_, hw, hport, hreads, hcmd hne, hstatus, fun hwid => ?_, fun hwid => ?_,
      fun n hn hni => registerValue_writeReg_other d _ hn hni⟩
    · have hrw := (writableWidth_indexOf_ne_zero_iff r).1 hwid
      rw [writableWidth_indexOf, if_pos hrw, registerValue_writeReg_self d _ hrw]
    · have hrw : accessOf r ≠ .rw := mt (writableWidth_indexOf_ne_zero_iff r).2 (not_not.2 hwid)
      exact writeReg_of_ro d _ (accessOf_eq_ro_of_ne_rw hne hrw)
  · have hzero := writableWidth_of_reservedIndex ((regAt_eq_none_iff idx).1 hnone)
    exact ⟨_, hw, rfl, rfl, rfl, rfl, fun hwid => absurd hzero hwid, fun _ => rfl, fun _ _ _ => rfl⟩

end Sys2Proof.Machine
end

section
/-! PROOFS. 30_encoding: the words that decode are those of the opcode map, and every other word raises IllegalCommand. -/

namespace Sys2Proof.Machine

open Sys2Proof.Spec

/-! ## The opcode map (R73, R74) -/

theorem toNat_eq_zero_iff {k : Nat} {b : BitVec k} : b.toNat = 0 ↔ b = 0 :=
  BitVec.toNat_inj (y := 0#k)

/-- A check for N = 0 agrees with a row of the opcode map that names `i` at operand 0 only. -/
theorem noOperand_eq_ok_iff_row {n : BitVec 8} {i j : Instr} {row : Nat → Option Instr} (hzero : row 0 = some i)
    (hsucc : ∀ k, row (k + 1) = none) : noOperand n i = .ok j ↔ row n.toNat = some j := by
  rw [noOperand_eq_ok_iff, ← toNat_eq_zero_iff]
  cases n.toNat with
  | zero => simp only [hzero, true_and, Option.some.injEq]
  | succ k => simp only [hsucc, Nat.succ_ne_zero, false_and, reduceCtorEq]

theorem commandNamed_of_reserved {op : Nat} (h : 13 ≤ op) (n : Nat) : commandNamed op n = none := by
  unfold commandNamed
  split
  case h_14 => rfl
  all_goals omega

/-- Under RSV = 0 the decoder is the opcode map of the other two fields: the opcodes with an operand, the reserved ones, and
those that check N = 0. -/
theorem decode_eq_ok_iff_commandNamed {w : CmdWord} {i : Instr} (hrsv : rsvField w = 0) :
    decode w = .ok i ↔ commandNamed (opField w).toNat (nField w).toNat = some i := by
  rw [decode, if_neg (not_not.2 hrsv)]
  generalize (opField w).toNat = op
  split
  case h_5 | h_6 | h_9 | h_10 | h_12 => exact (Except.ok.injEq ..).to_iff.trans Option.some_inj.symm
  case h_14 =>
    have hop : 13 ≤ op := by simp only [imp_false] at *; omega
    rw [commandNamed_of_reserved hop]
    exact ⟨nofun, nofun⟩
  all_goals exact noOperand_eq_ok_iff_row rfl fun _ => rfl

/-- A word decodes exactly if RSV is 0 and its opcode and operand name the command. -/
theorem decode_eq_ok_iff {w : CmdWord} {i : Instr} :
    decode w = .ok i ↔ w.toNat / 16 % 16 = 0 ∧ commandNamed (w.toNat % 16) (w.toNat / 256) = some i := by
  have hiff : rsvField w = 0 ↔ w.toNat / 16 % 16 = 0 := by rw [← toNat_eq_zero_iff, toNat_rsvField]
  rw [← hiff, ← toNat_opField, ← toNat_nField]
  constructor
  · intro h
    have hrsv := rsvField_of_decode_ok h
    exact ⟨hrsv, (decode_eq_ok_iff_commandNamed hrsv).1 h⟩
  · rintro ⟨hrsv, hnamed⟩
    exact (decode_eq_ok_iff_commandNamed hrsv).2 hnamed

/-! ## A word that is not accepted (R74, R202) -/

/-- IllegalCommand is error 4 with EPOS = 0, and changes STATUS alone. -/
theorem raiseErr_illegalCommand (s : State) : raiseErr .illegalCommand 0 s = failed s 4 0 := rfl

theorem issue_of_not_decode_ok {s : State} (h : ∀ i, decode s.cmd ≠ .ok i) : issue s = .next (failed s 4 0) := by
  rcases issue_cases s with ⟨i, hd, -⟩ | ⟨_, -, hi⟩
  · exact absurd hd (h i)
  · rw [hi, raiseErr_illegalCommand]

/-- Settles O3: RSV, then the row of the opcode, decide what a word decodes to; a refused word raises IllegalCommand. -/
theorem decodingFollowsTheOpcodeMap : Obligations.DecodingFollowsTheOpcodeMap :=
  ⟨fun _ _ => decode_eq_ok_iff, fun _ => issue_of_not_decode_ok⟩

end Sys2Proof.Machine
end

section
/-! PROOFS. Binary64 (00_scope R11): an operation on finite operands is one rounding of the exact result, and a rounding is
monotone and close to what it rounds. -/

namespace Sys2Proof.Machine

/-! ## The values of finite patterns -/

theorem fVal_eq_fMag (x : F64) : fVal x = sgn (fSign x) * ((fMag x : ℚ) / unitsPerOne) := rfl

theorem fVal_zero : fVal 0 = 0 := (fVal_eq_zero 0).2 (by decide)

theorem fVal_nonneg {t : F64} (hs : fSign t = false) : 0 ≤ fVal t := by
  rw [fVal_eq, hs, sgn_false, one_mul]
  exact div_nonneg (Nat.cast_nonneg _) unitsPerOne_pos.le

theorem fVal_nonpos {t : F64} (hs : fSign t = true) : fVal t ≤ 0 := by
  have h := fVal_nonneg (t := fNeg t) (by rw [fSign_fNeg, hs]; rfl)
  rwa [fVal_fNeg, neg_nonneg] at h

theorem fSign_eq_false_of_pos {t : F64} (h : 0 < fVal t) : fSign t = false :=
  Bool.eq_false_iff.2 fun hs => (fVal_nonpos hs).not_gt h

theorem eq_fInf_of_isInf {x : F64} (h : isInf x = true) : x = fInf (fSign x) := by
  rw [fInf, ← (isInf_iff x).1 h, ofBody_fSign_fBody]

theorem fVal_lt_fVal_iff {x y : F64} (hx : fSign x = false) (hy : fSign y = false) :
    fVal x < fVal y ↔ fBody x < fBody y := by
  rw [fVal_eq, fVal_eq, hx, hy, sgn_false, one_mul, one_mul, div_lt_div_iff_of_pos_right unitsPerOne_pos, Nat.cast_lt,
    bodyMag_strictMono.lt_iff_lt]

/-- Away from the two zeros a value has one pattern. -/
theorem eq_of_fVal_eq {x y : F64} (h : fVal x = fVal y) (h0 : fVal y ≠ 0) : x = y := by
  have hbody : fBody x = fBody y := by
    have habs : |fVal x| = |fVal y| := by rw [h]
    rw [abs_fVal, abs_fVal, div_left_inj' unitsPerOne_ne_zero, Nat.cast_inj] at habs
    exact bodyMag_strictMono.injective habs
  have hmag : (0 : ℚ) ≤ (bodyMag (fBody y) : ℚ) / unitsPerOne := div_nonneg (Nat.cast_nonneg _) unitsPerOne_pos.le
  rw [fVal_eq, fVal_eq, hbody] at h
  rw [fVal_eq] at h0
  refine f64_ext ?_ hbody
  have hx := sgn_mul_neg_iff (fSign x) hmag (h ▸ h0)
  rw [h] at hx
  exact hx.trans (sgn_mul_neg_iff _ hmag h0).symm

/-- The largest finite value is 2^970 below where rounding overflows, half a unit in its last place. -/
theorem abs_fVal_add_lt {x : F64} (h : isFinite x = true) {c : ℚ} (hc : c < 2 ^ 970) : |fVal x| + c < overflowBound := by
  have hmax : (bodyMag (infBody - 1) : ℚ) = 2 ^ 2098 - 2 ^ 2045 := by
    have hnat : bodyMag (infBody - 1) = 2 ^ 2098 - 2 ^ 2045 := by decide +kernel
    rw [hnat, Nat.cast_sub (Nat.pow_le_pow_right two_pos (by norm_num)), Nat.cast_pow, Nat.cast_pow, Nat.cast_ofNat]
  have hle : (bodyMag (fBody x) : ℚ) ≤ bodyMag (infBody - 1) :=
    Nat.cast_le.2 (bodyMag_strictMono.monotone (Nat.le_sub_one_of_lt ((isFinite_iff x).1 h)))
  have hc' : c * unitsPerOne < 2 ^ 2044 := by
    have : (2 : ℚ) ^ 2044 = 2 ^ 970 * unitsPerOne := by rw [unitsPerOne_eq, ← pow_add]
    rw [this]
    exact mul_lt_mul_of_pos_right hc unitsPerOne_pos
  have h2 : (2 : ℚ) ^ 2045 = 2 * 2 ^ 2044 := by rw [← pow_succ']
  rw [abs_fVal, overflowBound_eq, lt_div_iff₀ unitsPerOne_pos, add_mul, div_mul_cancel₀ _ unitsPerOne_ne_zero]
  generalize (2 : ℚ) ^ 2044 = half at *
  rw [hmax, h2] at hle
  linarith

theorem abs_fVal_lt_overflowBound {x : F64} (h : isFinite x = true) : |fVal x| < overflowBound := by
  simpa using abs_fVal_add_lt h (c := 0) (by positivity)

theorem abs_add_lt_overflowBound {x : F64} (hx : isFinite x = true) {c : ℚ} (hc : |c| ≤ 2 ^ 9) :
    |fVal x + c| < overflowBound := by
  have hc' : |c| < 2 ^ 970 := hc.trans_lt (pow_lt_pow_right₀ one_lt_two (by norm_num))
  exact (abs_add_le _ _).trans_lt (abs_fVal_add_lt hx hc')

/-- A division by at least 1 does not overflow. -/
theorem abs_div_lt_overflowBound {c : ℚ} (hc : 1 ≤ c) {d : F64} (hd : isFinite d = true) :
    |fVal d / c| < overflowBound := by
  rw [abs_div, abs_of_pos (one_pos.trans_le hc)]
  exact (div_le_self (abs_nonneg _) hc).trans_lt (abs_fVal_lt_overflowBound hd)

theorem lt_overflowBound {k : Nat} (hk : k < 1024) {x : ℚ} (hx : |x| ≤ 2 ^ k) : |x| < overflowBound := by
  have h1 : (2 : ℚ) ^ k ≤ 2 ^ 1023 := pow_le_pow_right₀ (by norm_num) (by omega)
  have h2 : (2 : ℚ) ^ 1024 = 2 * 2 ^ 1023 := by rw [← pow_succ']
  have h3 : (2 : ℚ) ^ 970 < 2 ^ 1023 := pow_lt_pow_right₀ (by norm_num) (by norm_num)
  unfold overflowBound
  rw [h2]
  generalize (2 : ℚ) ^ 1023 = half at *
  generalize (2 : ℚ) ^ 970 = gap at *
  linarith

/-! ## The operations round once -/

theorem addFinite_roundsTo (a b : F64) : RoundsTo (fVal a + fVal b) (addFinite a b) := by
  have scaled : ∀ (s : Bool) (n : Nat), RoundsTo (sgn s * ((n : ℚ) / unitsPerOne)) (round64 s n 1) := fun s n => by
    simpa using round64_roundsTo s n one_pos
  have opposite : fSign a ≠ fSign b → sgn (fSign a) = -sgn (fSign b) := by
    cases fSign a <;> cases fSign b <;> simp
  rw [fVal_eq_fMag, fVal_eq_fMag]
  unfold addFinite
  split_ifs with hs hm hlt
  · rw [← hs, ← mul_add, ← add_div, ← Nat.cast_add]
    exact scaled _ _
  · rw [opposite hs, hm, neg_mul, neg_add_cancel]
    have h0 := scaled false 0
    rwa [Nat.cast_zero, zero_div, mul_zero] at h0
  · rw [← neg_eq_iff_eq_neg.2 (opposite hs), neg_mul, ← sub_eq_add_neg, ← mul_sub, ← sub_div, ← Nat.cast_sub hlt.le]
    exact scaled _ _
  · rw [opposite hs, add_comm, neg_mul, ← sub_eq_add_neg, ← mul_sub, ← sub_div, ← Nat.cast_sub (not_lt.1 hlt)]
    exact scaled _ _

theorem fadd_roundsTo {a b : F64} (ha : isFinite a = true) (hb : isFinite b = true) :
    RoundsTo (fVal a + fVal b) (fadd a b) := by
  simpa [fadd, isFinite_excludes ha, isFinite_excludes hb] using addFinite_roundsTo a b

theorem fsub_roundsTo {a b : F64} (ha : isFinite a = true) (hb : isFinite b = true) :
    RoundsTo (fVal a - fVal b) (fsub a b) := by
  rw [sub_eq_add_neg, ← fVal_fNeg]
  exact fadd_roundsTo ha ((isFinite_fNeg b).trans hb)

theorem fmul_roundsTo {a b : F64} (ha : isFinite a = true) (hb : isFinite b = true) :
    RoundsTo (fVal a * fVal b) (fmul a b) := by
  have h := round64_roundsTo (fSign a ^^ fSign b) (fMag a * fMag b) (d := 2 ^ 1074) (by positivity)
  have hexact : fVal a * fVal b =
      sgn (fSign a ^^ fSign b) * (((fMag a * fMag b : ℕ) : ℚ) / (2 ^ 1074 : ℕ) / unitsPerOne) := by
    rw [Nat.cast_mul, Nat.cast_pow, Nat.cast_two, ← unitsPerOne_eq, sgn_xor, fVal_eq_fMag, fVal_eq_fMag]
    ring
  rw [← hexact] at h
  obtain ⟨hna, hia⟩ := isFinite_excludes ha
  obtain ⟨hnb, hib⟩ := isFinite_excludes hb
  rwa [fmul, hna, hnb, hia, hib, Bool.or_self, if_neg Bool.false_ne_true, if_neg Bool.false_ne_true]

theorem fdiv_roundsTo {a b : F64} (ha : isFinite a = true) (hb : isFinite b = true) (hb0 : isZero b = false) :
    RoundsTo (fVal a / fVal b) (fdiv a b) := by
  have hmag : 0 < fMag b := by
    rw [fMag_eq, Nat.pos_iff_ne_zero, ne_eq, bodyMag_eq_zero, ← isZero_iff, hb0]
    exact Bool.false_ne_true
  have h := round64_roundsTo (fSign a ^^ fSign b) (fMag a * 2 ^ 1074) hmag
  have hexact : fVal a / fVal b =
      sgn (fSign a ^^ fSign b) * (((fMag a * 2 ^ 1074 : ℕ) : ℚ) / fMag b / unitsPerOne) := by
    have hinv : (sgn (fSign b))⁻¹ = sgn (fSign b) := inv_eq_of_mul_eq_one_left (sgn_mul_self _)
    rw [Nat.cast_mul, Nat.cast_pow, Nat.cast_two, ← unitsPerOne_eq, sgn_xor, fVal_eq_fMag, fVal_eq_fMag,
      mul_div_mul_comm, div_eq_mul_inv (sgn _), hinv]
    have := unitsPerOne_ne_zero
    field_simp
  rw [← hexact] at h
  obtain ⟨hna, hia⟩ := isFinite_excludes ha
  obtain ⟨hnb, hib⟩ := isFinite_excludes hb
  rwa [fdiv, hna, hnb, hia, hib, hb0, Bool.or_self, if_neg Bool.false_ne_true, if_neg Bool.false_ne_true,
    if_neg Bool.false_ne_true, if_neg Bool.false_ne_true]

theorem toF64_roundsTo (n : Nat) : RoundsTo n (toF64 n) := by
  have h := round64_roundsTo false (n * 2 ^ 1074) one_pos
  rwa [Nat.cast_one, div_one, Nat.cast_mul, Nat.cast_pow, Nat.cast_two, ← unitsPerOne_eq,
    mul_div_cancel_right₀ _ unitsPerOne_ne_zero, sgn_false, one_mul] at h

/-! ## Rounding is monotone -/

/-- Of two values the one nearer to x lies on x's side of their middle. -/
theorem add_le_two_mul_of_nearer {u v x : ℚ} (h : v < u) (hn : |u - x| ≤ |v - x|) : u + v ≤ 2 * x := by
  by_contra hx
  have : |v - x| < u - x := abs_lt.2 ⟨by linarith, by linarith⟩
  linarith [le_abs_self (u - x)]

/-- Between two even bodies of one sign lies an odd one. -/
theorem exists_fVal_between_of_nonneg {a b : F64} (ha : isFinite a = true) (hsa : fSign a = false) (hsb : fSign b = false)
    (hea : fBody a % 2 = 0) (heb : fBody b % 2 = 0) (h : fVal b < fVal a) :
    ∃ y, isFinite y = true ∧ fVal b < fVal y ∧ fVal y < fVal a := by
  have hlt := (fVal_lt_fVal_iff hsb hsa).1 h
  have hfin := (isFinite_iff a).1 ha
  have hbody : fBody (ofBody false (fBody b + 1)) = fBody b + 1 := fBody_ofBody (by have := fBody_lt a; omega)
  refine ⟨ofBody false (fBody b + 1), (isFinite_iff _).2 (by omega), ?_, ?_⟩
  · rw [fVal_lt_fVal_iff hsb (fSign_ofBody ..)]; omega
  · rw [fVal_lt_fVal_iff (fSign_ofBody ..) hsa]; omega

theorem exists_fVal_between {a b : F64} (ha : isFinite a = true) (hb : isFinite b = true) (hs : fSign a = fSign b)
    (hea : a.getLsbD 0 = false) (heb : b.getLsbD 0 = false) (h : fVal b < fVal a) :
    ∃ y, isFinite y = true ∧ fVal b < fVal y ∧ fVal y < fVal a := by
  rw [getLsbD_zero_eq, decide_eq_false_iff_not, ← ne_eq, Nat.mod_two_ne_one] at hea heb
  cases hsa : fSign a with
  | false => exact exists_fVal_between_of_nonneg ha hsa (hs ▸ hsa) hea heb h
  | true =>
    obtain ⟨y, hy, h1, h2⟩ := exists_fVal_between_of_nonneg (a := fNeg b) (b := fNeg a) ((isFinite_fNeg b).trans hb)
      (by rw [fSign_fNeg, ← hs, hsa]; rfl) (by rw [fSign_fNeg, hsa]; rfl) (by rwa [fBody_fNeg]) (by rwa [fBody_fNeg])
      (by rw [fVal_fNeg, fVal_fNeg]; exact neg_lt_neg h)
    rw [fVal_fNeg] at h1 h2
    exact ⟨fNeg y, (isFinite_fNeg y).trans hy, by rw [fVal_fNeg]; linarith, by rw [fVal_fNeg]; linarith⟩

/-- Roundings keep order: two values in the wrong order would both be nearest to their middle, both even, with a finite
value between them that is nearer. -/
theorem RoundsTo.mono {x y : ℚ} {a b : F64} (ha : RoundsTo x a) (hb : RoundsTo y b) (hx : |x| < overflowBound)
    (hy : |y| < overflowBound) (h : x ≤ y) : fVal a ≤ fVal b := by
  by_contra hab
  have hlt : fVal b < fVal a := lt_of_not_ge hab
  have fa := ha.finite hx
  have fb := hb.finite hy
  have hxm : fVal a + fVal b ≤ 2 * x := add_le_two_mul_of_nearer hlt (ha.nearest hx b fb)
  have hym : -fVal b + -fVal a ≤ 2 * -y := add_le_two_mul_of_nearer (neg_lt_neg hlt) (by
    rw [neg_sub_neg, neg_sub_neg, abs_sub_comm, abs_sub_comm y]
    exact hb.nearest hy a fa)
  obtain rfl : x = y := by linarith
  have hmid : x = (fVal a + fVal b) / 2 := by linarith
  have da : |fVal a - x| = (fVal a - fVal b) / 2 := by rw [abs_of_nonneg] <;> linarith
  have db : |fVal b - x| = (fVal a - fVal b) / 2 := by rw [abs_of_nonpos] <;> linarith
  have hx0 : x ≠ 0 := by
    rintro rfl
    have h0 := ha.nearest hx 0 (by decide)
    rw [da, fVal_zero, sub_zero, abs_zero] at h0
    linarith
  obtain ⟨z, fz, hbz, hza⟩ := exists_fVal_between fa fb ((ha.sign hx0).trans (hb.sign hx0).symm)
    (ha.tie_even hx b fb hlt.ne (db.trans da.symm)) (hb.tie_even hx a fa hlt.ne' (da.trans db.symm)) hlt
  have hz := ha.nearest hx z fz
  have hnear : |fVal z - x| < (fVal a - fVal b) / 2 := abs_lt.2 ⟨by linarith, by linarith⟩
  linarith

/-- `RoundsTo.mono` in the range of the fixed-point numbers. -/
theorem RoundsTo.mono_of_le {x y : ℚ} {a b : F64} (ha : RoundsTo x a) (hb : RoundsTo y b) (h0 : 0 ≤ x) (h : x ≤ y)
    (h1 : y ≤ 2 ^ 56) : fVal a ≤ fVal b := by
  refine ha.mono hb (lt_overflowBound (k := 56) (by norm_num) ?_) (lt_overflowBound (k := 56) (by norm_num) ?_) h
  · rw [abs_of_nonneg h0]; exact h.trans h1
  · rwa [abs_of_nonneg (h0.trans h)]

/-- A rounding of a number in [0, C], for a value C of binary64, stays there. -/
theorem RoundsTo.mem_Icc {x : ℚ} {r C : F64} (h : RoundsTo x r) (hC : isFinite C = true) (h0 : 0 ≤ x)
    (h1 : x ≤ fVal C) : 0 ≤ fVal r ∧ fVal r ≤ fVal C := by
  have hx : |x| < overflowBound := by
    rw [abs_of_nonneg h0]
    exact (h1.trans (le_abs_self _)).trans_lt (abs_fVal_lt_overflowBound hC)
  exact ⟨fVal_zero ▸ h.ge hx (y := 0) (by decide) (fVal_zero ▸ h0), h.le hx hC h1⟩

/-- A rounding of a number in [−C, C], for a value C of binary64, stays there. -/
theorem RoundsTo.abs_fVal_le {x : ℚ} {r C : F64} (h : RoundsTo x r) (hC : isFinite C = true) (hx : |x| ≤ fVal C) :
    isFinite r = true ∧ |fVal r| ≤ fVal C := by
  have hlt : |x| < overflowBound := (hx.trans (le_abs_self _)).trans_lt (abs_fVal_lt_overflowBound hC)
  obtain ⟨hlow, hup⟩ := abs_le.1 hx
  have hge := h.ge hlt (y := fNeg C) ((isFinite_fNeg C).trans hC) (by rwa [fVal_fNeg])
  rw [fVal_fNeg] at hge
  exact ⟨h.finite hlt, abs_le.2 ⟨hge, h.le hlt hC hup⟩⟩

/-! ## Rounding is close -/

/-- Every multiple j·2^s up to 2^53·2^s is the magnitude of a body: shift j left until it has its 53 bits, or s is used up. -/
theorem exists_bodyMag_eq (s : Nat) {j : Nat} (hj : j ≤ 2 ^ 53) : ∃ m, bodyMag m = j * 2 ^ s := by
  induction s generalizing j with
  | zero => exact ⟨0 * 2 ^ 52 + j, bodyMag_shift hj (.inl rfl)⟩
  | succ s ih =>
    by_cases h : 2 ^ 52 ≤ j
    · exact ⟨(s + 1) * 2 ^ 52 + j, bodyMag_shift hj (.inr h)⟩
    · obtain ⟨m, hm⟩ := ih (j := 2 * j) (by omega)
      exact ⟨m, hm.trans (by rw [pow_succ]; ring)⟩

/-- Up to 2^k there is a finite value within 2^k/2^53 of any number: the multiple of 2^k/2^53 next to it towards zero. -/
theorem exists_fVal_near {k : Nat} (hk : k < 1024) {x : ℚ} (hx : |x| ≤ 2 ^ k) :
    ∃ y, isFinite y = true ∧ |fVal y - x| ≤ 2 ^ k / 2 ^ 53 := by
  set g : ℚ := 2 ^ k / 2 ^ 53 with hg
  have hg0 : 0 < g := by positivity
  have hgu : g = 2 ^ (k + 1021) / unitsPerOne := by
    rw [hg, unitsPerOne_eq, div_eq_div_iff (by positivity) (by positivity), ← pow_add, ← pow_add]
  have hle : |x| / g ≤ (2 ^ 53 : ℕ) := by
    rw [div_le_iff₀ hg0, hg, Nat.cast_pow, Nat.cast_two, mul_div_cancel₀ _ (by positivity)]
    exact hx
  have hj : ⌊|x| / g⌋₊ ≤ 2 ^ 53 := Nat.floor_le_of_le hle
  obtain ⟨m, hm⟩ := exists_bodyMag_eq (k + 1021) hj
  have hfin : m < infBody := by
    refine bodyMag_strictMono.lt_iff_lt.1 (lt_of_lt_of_eq ?_ bodyMag_infBody.symm)
    calc bodyMag m ≤ 2 ^ 53 * 2 ^ (k + 1021) := hm.trans_le (Nat.mul_le_mul_right _ hj)
      _ = 2 ^ (53 + (k + 1021)) := (pow_add ..).symm
      _ < 2 ^ 2098 := Nat.pow_lt_pow_right one_lt_two (by omega)
  have hmq : (bodyMag m : ℚ) / unitsPerOne = ⌊|x| / g⌋₊ * g := by
    rw [hm, Nat.cast_mul, Nat.cast_pow, Nat.cast_two, hgu, mul_div_assoc]
  have hlow : ⌊|x| / g⌋₊ * g ≤ |x| := (le_div_iff₀ hg0).1 (Nat.floor_le (by positivity))
  have hup : |x| < (⌊|x| / g⌋₊ + 1) * g := (div_lt_iff₀ hg0).1 (Nat.lt_floor_add_one _)
  have hsign : ∃ b, x = sgn b * |x| := by
    rcases abs_cases x with ⟨h, -⟩ | ⟨h, -⟩
    · exact ⟨false, by rw [sgn_false, one_mul, h]⟩
    · exact ⟨true, by rw [sgn_true, h, neg_one_mul, neg_neg]⟩
  obtain ⟨b, hb⟩ := hsign
  have hm63 : m < 2 ^ 63 := hfin.trans (by decide)
  refine ⟨ofBody b m, by rwa [isFinite_iff, fBody_ofBody hm63], ?_⟩
  rw [fVal_ofBody _ hm63, hmq]
  have hsub : sgn b * (⌊|x| / g⌋₊ * g) - x = sgn b * (⌊|x| / g⌋₊ * g - |x|) := by rw [mul_sub, ← hb]
  rw [hsub, abs_mul, abs_sgn, one_mul, abs_le]
  constructor <;> linarith

theorem RoundsTo.error_le {x : ℚ} {r : F64} (h : RoundsTo x r) {k : Nat} (hk : k < 1024) (hx : |x| ≤ 2 ^ k) :
    |fVal r - x| ≤ 2 ^ k / 2 ^ 53 := by
  obtain ⟨y, hy, hnear⟩ := exists_fVal_near hk hx
  exact (h.nearest (lt_overflowBound hk hx) y hy).trans hnear

end Sys2Proof.Machine
end

section
/-! PROOFS. 30_encoding and 10_state: the one word of a command without an operand, and the state a completing command
leaves. -/

namespace Sys2Proof.Machine

open Sys2Proof.Spec

/-- The only word of an opcode that names its command at operand 0 alone is the opcode itself. -/
theorem soleWord_of_commandNamed {w : CmdWord} {i : Instr} (henc : encode i = w) (hw : w.toNat < 16)
    (hzero : commandNamed w.toNat 0 = some i) (hsucc : ∀ n, commandNamed w.toNat (n + 1) = none) : soleWord w i := by
  refine ⟨henc, fun s hs => ?_⟩
  split_ifs with h
  · refine issue_of_decode_ok (decode_eq_ok_iff.2 ?_)
    rw [h, Nat.mod_eq_of_lt hw, Nat.div_eq_of_lt hw, Nat.div_eq_of_lt (hw.trans (by norm_num))]
    exact ⟨rfl, hzero⟩
  · refine issue_of_not_decode_ok fun j hj => h (BitVec.eq_of_toNat_eq ?_)
    obtain ⟨hrsv, hnamed⟩ := decode_eq_ok_iff.1 hj
    rw [hs] at hnamed
    cases hn : s.cmd.toNat / 256 with
    | zero => omega
    | succ n => rw [hn, hsucc] at hnamed; cases hnamed

theorem statusCompleted_eq_and (w : BitVec 16) : statusCompleted w = w &&& 0x0010#16 := by
  have hmask : 0x0010#16 = BitVec.twoPow 16 4 := by decide
  rw [hmask, BitVec.and_twoPow, statusCompleted, stickyOf]
  cases w.getLsbD 4 <;> decide

theorem complete_eq_done {s u : State} (h : u.status = s.status) : complete u = done s u := by
  rw [complete, done, statusCompleted_eq_and, h]

end Sys2Proof.Machine
end

section
/-! PROOFS. 40_normalizer: the rounded formulas of an axis, and what they keep: the range, the order, and the coordinate up
to rounding. -/

namespace Sys2Proof.Machine

open Sys2Proof.Spec

/-! ## The fraction of an axis as a fixed-point number (R102) -/

theorem fixedOf_lt (t : ℚ) : fixedOf t < 2 ^ 56 := by
  unfold fixedOf
  split_ifs <;> omega

theorem fixedOf_mono {t u : ℚ} (h : t ≤ u) : fixedOf t ≤ fixedOf u := by
  unfold fixedOf
  split_ifs with ht hu
  · exact le_rfl
  · exact Nat.zero_le _
  · exact absurd (h.trans ‹u ≤ 0›) ht
  · gcongr

/-- Inside [0, 1] the fixed-point number is at most one step of 2^-56 below the fraction, saturated or not. -/
theorem abs_fixedOf_sub_le {t : ℚ} (h0 : 0 ≤ t) (h1 : t ≤ 1) : |(fixedOf t : ℚ) / 2 ^ 56 - t| ≤ 1 / 2 ^ 56 := by
  have hfloor := Nat.lt_floor_add_one (t * 2 ^ 56)
  have hfloor' : (⌊t * 2 ^ 56⌋₊ : ℚ) ≤ t * 2 ^ 56 := Nat.floor_le (by positivity)
  have hsteps : (fixedOf t : ℚ) ≤ t * 2 ^ 56 ∧ t * 2 ^ 56 - 1 ≤ fixedOf t := by
    unfold fixedOf
    split_ifs with ht
    · obtain rfl : t = 0 := le_antisymm ht h0
      norm_num
    · rw [min_eq_left h1, Nat.cast_min]
      refine ⟨(min_le_left _ _).trans hfloor', le_min (by linarith) ?_⟩
      push_cast
      linarith
  rw [div_sub' (by positivity), abs_div, abs_of_pos (by positivity : (0 : ℚ) < 2 ^ 56),
    div_le_div_iff_of_pos_right (by positivity), abs_le]
  constructor <;> linarith

theorem leZero_iff {t : F64} : leZero t = true ↔ fVal t ≤ 0 := by
  rw [leZero, Bool.or_eq_true, isZero_iff, ← fVal_eq_zero]
  cases hs : fSign t with
  | true => simp [fVal_nonpos hs]
  | false => simp [le_antisymm_iff, fVal_nonneg hs]

theorem gtPos_c1_iff {t : F64} (hs : fSign t = false) : gtPos t c1 = true ↔ 1 < fVal t := by
  rw [gtPos, hs, ← fVal_c1, fVal_lt_fVal_iff (by decide) hs]
  simp

theorem floor_fVal_mul {t : F64} (hs : fSign t = false) : ⌊fVal t * 2 ^ 56⌋₊ = fMag t * 2 ^ 56 / 2 ^ 1074 := by
  have hval : fVal t * 2 ^ 56 = ((fMag t * 2 ^ 56 : ℕ) : ℚ) / (2 ^ 1074 : ℕ) := by
    rw [fVal_eq_fMag, hs, sgn_false, one_mul, unitsPerOne_eq, Nat.cast_mul, Nat.cast_pow, Nat.cast_pow, Nat.cast_two,
      div_mul_eq_mul_div]
  rw [hval, Nat.floor_div_eq_div]

theorem normAxis_eq_fixedOf (t : F64) : normAxis t = fixedOf (fVal t) := by
  unfold normAxis fixedOf
  by_cases h0 : fVal t ≤ 0
  · rw [if_pos (leZero_iff.2 h0), if_pos h0]
  · have hs := fSign_eq_false_of_pos (not_le.1 h0)
    rw [if_neg (leZero_iff.not.2 h0), if_neg h0]
    by_cases h1 : 1 < fVal t
    · rw [if_pos ((gtPos_c1_iff hs).2 h1), min_eq_right h1.le, ← floor_fVal_mul (by decide), fVal_c1]
    · rw [if_neg ((gtPos_c1_iff hs).not.2 h1), min_eq_left (not_lt.1 h1), ← floor_fVal_mul hs]

/-! ## Both axes at once -/

/-- One axis of NORM: y degrees from the axis' zero, divided by its extent of c degrees, each rounded. -/
def AxisFixed (c y : ℚ) (q : Nat) : Prop :=
  ∃ d f, RoundsTo y d ∧ RoundsTo (fVal d / c) f ∧ q = fixedOf (fVal f)

/-- One axis of DENORM: d is q/2^56 of an extent of c degrees, each operation rounded. -/
def AxisDegrees (c : ℚ) (q : Nat) (d : F64) : Prop :=
  ∃ a b, RoundsTo q a ∧ RoundsTo (fVal a / 2 ^ 56) b ∧ RoundsTo (fVal b * c) d

theorem latFixed_iff {lat : F64} {q : Nat} : LatFixed lat q ↔
    (isInf lat = true ∧ q = if fSign lat then 2 ^ 56 - 1 else 0) ∨
      (isFinite lat = true ∧ AxisFixed 180 (90 - fVal lat) q) := Iff.rfl

theorem lonFixed_iff {lon : F64} {q : Nat} : LonFixed lon q ↔
    (isInf lon = true ∧ q = if fSign lon then 0 else 2 ^ 56 - 1) ∨
      (isFinite lon = true ∧ AxisFixed 360 (fVal lon + 180) q) := Iff.rfl

theorem latDegrees_iff {q : Nat} {x : F64} : LatDegrees q x ↔
    ∃ d, AxisDegrees 180 q d ∧ RoundsTo (90 - fVal d) x ∧ (fVal d = 90 → x = 0) := by
  constructor
  · rintro ⟨a, b, d, ha, hb, hd, hx⟩
    exact ⟨d, ⟨a, b, ha, hb, hd⟩, hx⟩
  · rintro ⟨d, ⟨a, b, ha, hb, hd⟩, hx⟩
    exact ⟨a, b, d, ha, hb, hd, hx⟩

theorem lonDegrees_iff {q : Nat} {x : F64} : LonDegrees q x ↔
    ∃ d, AxisDegrees 360 q d ∧ RoundsTo (fVal d - 180) x ∧ (fVal d = 180 → x = 0) := by
  constructor
  · rintro ⟨a, b, d, ha, hb, hd, hx⟩
    exact ⟨d, ⟨a, b, ha, hb, hd⟩, hx⟩
  · rintro ⟨d, ⟨a, b, ha, hb, hd⟩, hx⟩
    exact ⟨a, b, d, ha, hb, hd, hx⟩

theorem abs_le_two_pow_nine {y : ℚ} (h0 : 0 ≤ y) (h1 : y ≤ 360) : |y| ≤ 2 ^ 9 := by
  rw [abs_of_nonneg h0]
  linarith

/-- What an error of a fraction of an axis is in degrees. -/
theorem abs_mul_le_of_le {c u e : ℚ} (h0 : 0 ≤ c) (h1 : c ≤ 360) (hu : |u| ≤ e) : |u * c| ≤ e * 360 := by
  rw [abs_mul, abs_of_nonneg h0]
  exact mul_le_mul hu h1 h0 ((abs_nonneg u).trans hu)

theorem axisFixed_lt {c y : ℚ} {q : Nat} (h : AxisFixed c y q) : q < 2 ^ 56 := by
  obtain ⟨d, f, -, -, rfl⟩ := h
  exact fixedOf_lt _

/-- The extent of an axis is a value of binary64 between 1 and 360 degrees. -/
structure Extent (c : ℚ) (C : F64) : Prop where
  finite : isFinite C = true
  val : fVal C = c
  one_le : 1 ≤ c
  le : c ≤ 360

theorem extent_c180 : Extent 180 c180 := ⟨by decide, fVal_c180, by norm_num, by norm_num⟩
theorem extent_c360 : Extent 360 c360 := ⟨by decide, fVal_c360, by norm_num, by norm_num⟩

section axis
variable {c : ℚ} {C : F64} (ext : Extent c C)
include ext

theorem Extent.pos : 0 < c := lt_of_lt_of_le one_pos ext.one_le

theorem Extent.isZero : isZero C = false := by
  rw [Bool.eq_false_iff, ne_eq, isZero_iff, ← fVal_eq_zero, ext.val]
  exact ext.pos.ne'

/-! ## NORM on an axis -/

theorem axisFixed_normAxis {y : ℚ} {d : F64} (hd : RoundsTo y d) (hfin : isFinite d = true) :
    AxisFixed c y (normAxis (fdiv d C)) :=
  ⟨d, _, hd, ext.val ▸ fdiv_roundsTo hfin ext.finite ext.isZero, normAxis_eq_fixedOf _⟩

theorem axisFixed_mono {y y' : ℚ} {q q' : Nat} (h : AxisFixed c y q) (h' : AxisFixed c y' q')
    (hy : |y| < overflowBound) (hy' : |y'| < overflowBound) (hle : y ≤ y') : q ≤ q' := by
  obtain ⟨d, f, hd, hf, rfl⟩ := h
  obtain ⟨d', f', hd', hf', rfl⟩ := h'
  refine fixedOf_mono (hf.mono hf' (abs_div_lt_overflowBound ext.one_le (hd.finite hy))
    (abs_div_lt_overflowBound ext.one_le (hd'.finite hy')) ?_)
  exact div_le_div_of_nonneg_right (hd.mono hd' hy hy' hle) ext.pos.le

/-- In range, NORM's number is the exact fraction up to 2^-43 degrees: the roundings of y and of the division, and the
floor. -/
theorem axisFixed_error_le {y : ℚ} {q : Nat} (h : AxisFixed c y q) (h0 : 0 ≤ y) (h1 : y ≤ c) :
    |(q : ℚ) / 2 ^ 56 * c - y| ≤ 1 / 2 ^ 43 := by
  obtain ⟨d, f, hd, hf, rfl⟩ := h
  obtain ⟨hd0, hd1⟩ := hd.mem_Icc ext.finite h0 (h1.trans_eq ext.val.symm)
  have hq0 : 0 ≤ fVal d / c := div_nonneg hd0 ext.pos.le
  have hq1 : fVal d / c ≤ 1 := (div_le_one ext.pos).2 (hd1.trans_eq ext.val)
  obtain ⟨hf0, hf1⟩ := hf.mem_Icc (C := c1) (by decide) hq0 (hq1.trans_eq fVal_c1.symm)
  have ed := hd.error_le (k := 9) (by norm_num) (abs_le_two_pow_nine h0 (h1.trans ext.le))
  have ef := hf.error_le (k := 0) (by norm_num) (by rwa [abs_of_nonneg hq0, pow_zero])
  have efix := abs_fixedOf_sub_le hf0 (hf1.trans_eq fVal_c1)
  calc |(fixedOf (fVal f) : ℚ) / 2 ^ 56 * c - y|
      = |((fixedOf (fVal f) : ℚ) / 2 ^ 56 - fVal f) * c + (fVal f - fVal d / c) * c + (fVal d - y)| := by
        rw [← add_mul, sub_add_sub_cancel, sub_mul, div_mul_cancel₀ _ ext.pos.ne', sub_add_sub_cancel]
    _ ≤ 1 / 2 ^ 56 * 360 + 2 ^ 0 / 2 ^ 53 * 360 + 2 ^ 9 / 2 ^ 53 := (abs_add_three _ _ _).trans
        (add_le_add_three (abs_mul_le_of_le ext.pos.le ext.le efix) (abs_mul_le_of_le ext.pos.le ext.le ef) ed)
    _ ≤ 1 / 2 ^ 43 := by norm_num

/-! ## DENORM on an axis -/

/-- The three roundings of an axis of DENORM stay in [0, 2^56], in [0, 1] and in [0, c]. -/
theorem axisDegrees_ranges {q : Nat} {d : F64} (hq : q ≤ 2 ^ 56) (h : AxisDegrees c q d) :
    ∃ a b, (RoundsTo q a ∧ 0 ≤ fVal a ∧ fVal a ≤ 2 ^ 56) ∧ (RoundsTo (fVal a / 2 ^ 56) b ∧ 0 ≤ fVal b ∧ fVal b ≤ 1) ∧
      (RoundsTo (fVal b * c) d ∧ 0 ≤ fVal d ∧ fVal d ≤ c) := by
  obtain ⟨a, b, ha, hb, hd⟩ := h
  have ra := ha.mem_Icc (C := c2p56) (by decide) (Nat.cast_nonneg q) (fVal_c2p56 ▸ by exact_mod_cast hq)
  rw [fVal_c2p56] at ra
  have rb := hb.mem_Icc (C := c1) (by decide) (div_nonneg ra.1 (by positivity))
    (fVal_c1 ▸ (div_le_one (by positivity)).2 ra.2)
  rw [fVal_c1] at rb
  have rd := hd.mem_Icc ext.finite (mul_nonneg rb.1 ext.pos.le)
    ((mul_le_of_le_one_left ext.pos.le rb.2).trans_eq ext.val.symm)
  rw [ext.val] at rd
  exact ⟨a, b, ⟨ha, ra⟩, ⟨hb, rb⟩, hd, rd⟩

theorem axisDegrees_mem_Icc {q : Nat} {d : F64} (hq : q ≤ 2 ^ 56) (h : AxisDegrees c q d) :
    0 ≤ fVal d ∧ fVal d ≤ c := by
  obtain ⟨_, _, -, -, -, hd⟩ := axisDegrees_ranges ext hq h
  exact hd

/-- DENORM's product is within 2^-42 degrees of the exact one: the roundings of q, of the division and of the product. -/
theorem axisDegrees_error_le {q : Nat} {d : F64} (hq : q ≤ 2 ^ 56) (h : AxisDegrees c q d) :
    |fVal d - (q : ℚ) / 2 ^ 56 * c| ≤ 1 / 2 ^ 42 := by
  obtain ⟨a, b, ⟨ha, ra⟩, ⟨hb, rb⟩, hd, rd⟩ := axisDegrees_ranges ext hq h
  have hab : 0 ≤ fVal a / 2 ^ 56 ∧ fVal a / 2 ^ 56 ≤ 1 :=
    ⟨div_nonneg ra.1 (by positivity), (div_le_one (by positivity)).2 ra.2⟩
  have hbc : 0 ≤ fVal b * c ∧ fVal b * c ≤ 360 :=
    ⟨mul_nonneg rb.1 ext.pos.le, (mul_le_of_le_one_left ext.pos.le rb.2).trans ext.le⟩
  have ea := ha.error_le (k := 56) (by norm_num) (by rw [Nat.abs_cast]; exact_mod_cast hq)
  have ea' : |(fVal a - q) / 2 ^ 56| ≤ 1 / 2 ^ 53 := by
    rw [abs_div, abs_of_pos (by positivity : (0 : ℚ) < 2 ^ 56), div_le_iff₀ (by positivity)]
    linarith
  have eb := hb.error_le (k := 0) (by norm_num) (by rw [abs_of_nonneg hab.1, pow_zero]; exact hab.2)
  have ed := hd.error_le (k := 9) (by norm_num) (abs_le_two_pow_nine hbc.1 hbc.2)
  calc |fVal d - (q : ℚ) / 2 ^ 56 * c|
      = |(fVal d - fVal b * c) + (fVal b - fVal a / 2 ^ 56) * c + (fVal a - q) / 2 ^ 56 * c| := by
        rw [sub_mul, sub_add_sub_cancel, sub_div, sub_mul, sub_add_sub_cancel]
    _ ≤ 2 ^ 9 / 2 ^ 53 + 2 ^ 0 / 2 ^ 53 * 360 + 1 / 2 ^ 53 * 360 := (abs_add_three _ _ _).trans
        (add_le_add_three ed (abs_mul_le_of_le ext.pos.le ext.le eb) (abs_mul_le_of_le ext.pos.le ext.le ea'))
    _ ≤ 1 / 2 ^ 42 := by norm_num

theorem axisDegrees_mono {q q' : Nat} {d d' : F64} (hq' : q' ≤ 2 ^ 56) (hle : q ≤ q') (h : AxisDegrees c q d)
    (h' : AxisDegrees c q' d') : fVal d ≤ fVal d' := by
  obtain ⟨a, b, ⟨ha, ha0, -⟩, ⟨hb, hb0, -⟩, hd, -⟩ := axisDegrees_ranges ext (hle.trans hq') h
  obtain ⟨a', b', ⟨ha', -, ha1⟩, ⟨hb', -, hb1⟩, hd', -⟩ := axisDegrees_ranges ext hq' h'
  have hc1 : c ≤ 2 ^ 56 := ext.le.trans (by norm_num)
  have haa : fVal a ≤ fVal a' :=
    ha.mono_of_le ha' (Nat.cast_nonneg _) (Nat.cast_le.2 hle) (by exact_mod_cast hq')
  have hbb : fVal b ≤ fVal b' :=
    hb.mono_of_le hb' (by positivity) (by gcongr) ((div_le_self (ha0.trans haa) (by norm_num)).trans ha1)
  exact hd.mono_of_le hd' (mul_nonneg hb0 ext.pos.le) (mul_le_mul_of_nonneg_right hbb ext.pos.le)
    ((mul_le_of_le_one_left ext.pos.le hb1).trans hc1)

theorem axisDegrees_isFinite {q : Nat} {d : F64} (hq : q ≤ 2 ^ 56) (h : AxisDegrees c q d) : isFinite d = true := by
  obtain ⟨a, b, -, ⟨-, hb0, hb1⟩, hd, -⟩ := axisDegrees_ranges ext hq h
  refine (hd.abs_fVal_le ext.finite ?_).1
  rw [abs_of_nonneg (mul_nonneg hb0 ext.pos.le), ext.val]
  exact mul_le_of_le_one_left ext.pos.le hb1

theorem axisDegrees_fmul {q : Nat} (hq : q ≤ 2 ^ 56) :
    AxisDegrees c q (fmul (fdiv (toF64 q) c2p56) C) := by
  have ha := toF64_roundsTo q
  have fa : isFinite (toF64 q) = true :=
    ha.finite (lt_overflowBound (k := 56) (by norm_num) (by rw [Nat.abs_cast]; exact_mod_cast hq))
  have hb := fdiv_roundsTo fa (b := c2p56) (by decide) (by decide)
  rw [fVal_c2p56] at hb
  have fb := hb.finite (abs_div_lt_overflowBound (by norm_num) fa)
  exact ⟨_, _, ha, hb, ext.val ▸ fmul_roundsTo fb ext.finite⟩

end axis

/-! ## The two axes -/

theorem toNat_ofNat_normAxis (t : F64) : (BitVec.ofNat 56 (normAxis t)).toNat = normAxis t := by
  rw [BitVec.toNat_ofNat, Nat.mod_eq_of_lt]
  exact normAxis_eq_fixedOf t ▸ fixedOf_lt _

theorem abs_ninety_sub_lt_overflowBound {lat : F64} (h : isFinite lat = true) : |90 - fVal lat| < overflowBound := by
  rw [abs_sub_comm, sub_eq_add_neg]
  exact abs_add_lt_overflowBound h (by norm_num)

theorem abs_add_one_eighty_lt_overflowBound {lon : F64} (h : isFinite lon = true) :
    |fVal lon + 180| < overflowBound := abs_add_lt_overflowBound h (by norm_num)

theorem latFixed_normLat {lat : F64} (h : isNaN lat = false) : LatFixed lat (normLat lat).toNat := by
  rcases class_cases lat with hf | hi | hn
  · have hd := fsub_roundsTo (a := c90) (by decide) hf
    rw [fVal_c90] at hd
    rw [normLat, toNat_ofNat_normAxis]
    exact .inr ⟨hf, axisFixed_normAxis extent_c180 hd (hd.finite (abs_ninety_sub_lt_overflowBound hf))⟩
  · refine .inl ⟨hi, ?_⟩
    rw [eq_fInf_of_isInf hi, fInf, fSign_ofBody]
    cases fSign lat <;> decide +kernel
  · rw [h] at hn; cases hn

theorem lonFixed_normLon {lon : F64} (h : isNaN lon = false) : LonFixed lon (normLon lon).toNat := by
  rcases class_cases lon with hf | hi | hn
  · have hd := fadd_roundsTo hf (b := c180) (by decide)
    rw [fVal_c180] at hd
    rw [normLon, toNat_ofNat_normAxis]
    exact .inr ⟨hf, axisFixed_normAxis extent_c360 hd (hd.finite (abs_add_one_eighty_lt_overflowBound hf))⟩
  · refine .inl ⟨hi, ?_⟩
    rw [eq_fInf_of_isInf hi, fInf, fSign_ofBody]
    cases fSign lon <;> decide +kernel
  · rw [h] at hn; cases hn

theorem latDegrees_denormLat (q : Fixed) : LatDegrees q.toNat (denormLat q) := by
  have hd := axisDegrees_fmul extent_c180 q.isLt.le
  have hx := fsub_roundsTo (a := c90) (by decide) (axisDegrees_isFinite extent_c180 q.isLt.le hd)
  rw [fVal_c90] at hx
  refine latDegrees_iff.2 ⟨_, hd, hx, fun h90 => ?_⟩
  rw [denormLat, eq_of_fVal_eq (h90.trans fVal_c90.symm) (by rw [fVal_c90]; norm_num)]
  decide +kernel

theorem lonDegrees_denormLon (q : Fixed) : LonDegrees q.toNat (denormLon q) := by
  have hd := axisDegrees_fmul extent_c360 q.isLt.le
  have hx := fsub_roundsTo (axisDegrees_isFinite extent_c360 q.isLt.le hd) (b := c180) (by decide)
  rw [fVal_c180] at hx
  refine lonDegrees_iff.2 ⟨_, hd, hx, fun h180 => ?_⟩
  rw [denormLon, eq_of_fVal_eq (h180.trans fVal_c180.symm) (by rw [fVal_c180]; norm_num)]
  decide +kernel

theorem latFixed_of_isInf {lat : F64} {q : Nat} (h : LatFixed lat q) (hi : isInf lat = true) :
    q = if fSign lat then 2 ^ 56 - 1 else 0 := by
  rcases latFixed_iff.1 h with ⟨-, hq⟩ | ⟨hf, -⟩
  · exact hq
  · rw [(isFinite_excludes hf).2] at hi; cases hi

theorem lonFixed_of_isInf {lon : F64} {q : Nat} (h : LonFixed lon q) (hi : isInf lon = true) :
    q = if fSign lon then 0 else 2 ^ 56 - 1 := by
  rcases lonFixed_iff.1 h with ⟨-, hq⟩ | ⟨hf, -⟩
  · exact hq
  · rw [(isFinite_excludes hf).2] at hi; cases hi

theorem latFixed_of_isFinite {lat : F64} {q : Nat} (h : LatFixed lat q) (hf : isFinite lat = true) :
    AxisFixed 180 (90 - fVal lat) q := by
  rcases latFixed_iff.1 h with ⟨hi, -⟩ | ⟨-, hq⟩
  · rw [(isFinite_excludes hf).2] at hi; cases hi
  · exact hq

theorem lonFixed_of_isFinite {lon : F64} {q : Nat} (h : LonFixed lon q) (hf : isFinite lon = true) :
    AxisFixed 360 (fVal lon + 180) q := by
  rcases lonFixed_iff.1 h with ⟨hi, -⟩ | ⟨-, hq⟩
  · rw [(isFinite_excludes hf).2] at hi; cases hi
  · exact hq

theorem latFixed_lt {lat : F64} {q : Nat} (h : LatFixed lat q) : q < 2 ^ 56 := by
  rcases latFixed_iff.1 h with ⟨-, rfl⟩ | ⟨-, hq⟩
  · split_ifs <;> norm_num
  · exact axisFixed_lt hq

theorem lonFixed_lt {lon : F64} {q : Nat} (h : LonFixed lon q) : q < 2 ^ 56 := by
  rcases lonFixed_iff.1 h with ⟨-, rfl⟩ | ⟨-, hq⟩
  · split_ifs <;> norm_num
  · exact axisFixed_lt hq

/-! ## Range (R106) -/

theorem latDegrees_range {q : Nat} (hq : q ≤ 2 ^ 56) {x : F64} (h : LatDegrees q x) :
    isFinite x = true ∧ -90 ≤ fVal x ∧ fVal x ≤ 90 := by
  obtain ⟨d, hd, hx, -⟩ := latDegrees_iff.1 h
  obtain ⟨hd0, hd1⟩ := axisDegrees_mem_Icc extent_c180 hq hd
  have hr := hx.abs_fVal_le (C := c90) (by decide) (by rw [fVal_c90, abs_le]; constructor <;> linarith)
  rwa [fVal_c90, abs_le] at hr

theorem lonDegrees_range {q : Nat} (hq : q ≤ 2 ^ 56) {x : F64} (h : LonDegrees q x) :
    isFinite x = true ∧ -180 ≤ fVal x ∧ fVal x ≤ 180 := by
  obtain ⟨d, hd, hx, -⟩ := lonDegrees_iff.1 h
  obtain ⟨hd0, hd1⟩ := axisDegrees_mem_Icc extent_c360 hq hd
  have hr := hx.abs_fVal_le (C := c180) (by decide) (by rw [fVal_c180, abs_le]; constructor <;> linarith)
  rwa [fVal_c180, abs_le] at hr

/-! ## Order (R108) -/

theorem latFixed_antitone {lat lat' : F64} {q q' : Nat} (h : LatFixed lat q) (h' : LatFixed lat' q')
    (hle : LeF lat lat') : q' ≤ q := by
  rcases hle with ⟨hi, hs⟩ | ⟨hi, hs⟩ | ⟨hf, hf', hv⟩
  · rw [latFixed_of_isInf h hi, if_pos hs]
    exact Nat.le_sub_one_of_lt (latFixed_lt h')
  · rw [latFixed_of_isInf h' hi, hs]
    exact Nat.zero_le q
  · exact axisFixed_mono extent_c180 (latFixed_of_isFinite h' hf') (latFixed_of_isFinite h hf)
      (abs_ninety_sub_lt_overflowBound hf') (abs_ninety_sub_lt_overflowBound hf) (by linarith)

theorem lonFixed_monotone {lon lon' : F64} {q q' : Nat} (h : LonFixed lon q) (h' : LonFixed lon' q')
    (hle : LeF lon lon') : q ≤ q' := by
  rcases hle with ⟨hi, hs⟩ | ⟨hi, hs⟩ | ⟨hf, hf', hv⟩
  · rw [lonFixed_of_isInf h hi, if_pos hs]
    exact Nat.zero_le q'
  · rw [lonFixed_of_isInf h' hi, hs]
    exact Nat.le_sub_one_of_lt (lonFixed_lt h)
  · exact axisFixed_mono extent_c360 (lonFixed_of_isFinite h hf) (lonFixed_of_isFinite h' hf')
      (abs_add_one_eighty_lt_overflowBound hf) (abs_add_one_eighty_lt_overflowBound hf') (by linarith)

theorem latDegrees_antitone {q q' : Nat} (hq' : q' ≤ 2 ^ 56) (hle : q ≤ q') {x x' : F64} (h : LatDegrees q x)
    (h' : LatDegrees q' x') : fVal x' ≤ fVal x := by
  obtain ⟨d, hd, hx, -⟩ := latDegrees_iff.1 h
  obtain ⟨d', hd', hx', -⟩ := latDegrees_iff.1 h'
  have hdd := axisDegrees_mono extent_c180 hq' hle hd hd'
  exact hx'.mono hx (abs_ninety_sub_lt_overflowBound (axisDegrees_isFinite extent_c180 hq' hd'))
    (abs_ninety_sub_lt_overflowBound (axisDegrees_isFinite extent_c180 (hle.trans hq') hd)) (by linarith)

theorem lonDegrees_monotone {q q' : Nat} (hq' : q' ≤ 2 ^ 56) (hle : q ≤ q') {x x' : F64} (h : LonDegrees q x)
    (h' : LonDegrees q' x') : fVal x ≤ fVal x' := by
  obtain ⟨d, hd, hx, -⟩ := lonDegrees_iff.1 h
  obtain ⟨d', hd', hx', -⟩ := lonDegrees_iff.1 h'
  have hdd := axisDegrees_mono extent_c360 hq' hle hd hd'
  rw [sub_eq_add_neg] at hx hx'
  exact hx.mono hx' (abs_add_lt_overflowBound (axisDegrees_isFinite extent_c360 (hle.trans hq') hd) (by norm_num))
    (abs_add_lt_overflowBound (axisDegrees_isFinite extent_c360 hq' hd') (by norm_num)) (by linarith)

/-! ## Round trip (R107) -/

/-- Three errors in a row: of NORM, of DENORM's product, and of DENORM's last rounding of at most 180 degrees. -/
theorem abs_sum_axis_errors_le {u v w : ℚ} (hu : |u| ≤ 1 / 2 ^ 43) (hv : |v| ≤ 1 / 2 ^ 42) (hw : |w| ≤ 2 ^ 8 / 2 ^ 53) :
    |u + v + w| ≤ 1 / 10 ^ 12 := by
  have := abs_add_three u v w
  norm_num at hu hv hw ⊢
  linarith

theorem latDegrees_of_latFixed_near {lat x : F64} {q : Nat} (hf : isFinite lat = true) (hlat : |fVal lat| ≤ 90)
    (hq : LatFixed lat q) (hx : LatDegrees q x) : |fVal x - fVal lat| ≤ 1 / 10 ^ 12 := by
  obtain ⟨hlow, hup⟩ := abs_le.1 hlat
  have hq56 := (latFixed_lt hq).le
  obtain ⟨d, hd, hr, -⟩ := latDegrees_iff.1 hx
  obtain ⟨hd0, hd1⟩ := axisDegrees_mem_Icc extent_c180 hq56 hd
  have efix := axisFixed_error_le extent_c180 (latFixed_of_isFinite hq hf) (by linarith) (by linarith)
  have ed := axisDegrees_error_le extent_c180 hq56 hd
  have er := hr.error_le (k := 8) (by norm_num) (by rw [abs_le]; constructor <;> linarith)
  rw [abs_sub_comm] at efix ed
  calc |fVal x - fVal lat|
      = |(90 - fVal lat - (q : ℚ) / 2 ^ 56 * 180) + ((q : ℚ) / 2 ^ 56 * 180 - fVal d) + (fVal x - (90 - fVal d))| := by
        congr 1; ring
    _ ≤ 1 / 10 ^ 12 := abs_sum_axis_errors_le efix ed er

theorem lonDegrees_of_lonFixed_near {lon x : F64} {q : Nat} (hf : isFinite lon = true) (hlon : |fVal lon| ≤ 180)
    (hq : LonFixed lon q) (hx : LonDegrees q x) : |fVal x - fVal lon| ≤ 1 / 10 ^ 12 := by
  obtain ⟨hlow, hup⟩ := abs_le.1 hlon
  have hq56 := (lonFixed_lt hq).le
  obtain ⟨d, hd, hr, -⟩ := lonDegrees_iff.1 hx
  obtain ⟨hd0, hd1⟩ := axisDegrees_mem_Icc extent_c360 hq56 hd
  have efix := axisFixed_error_le extent_c360 (lonFixed_of_isFinite hq hf) (by linarith) (by linarith)
  have ed := axisDegrees_error_le extent_c360 hq56 hd
  have er := hr.error_le (k := 8) (by norm_num) (by rw [abs_le]; constructor <;> linarith)
  calc |fVal x - fVal lon|
      = |((q : ℚ) / 2 ^ 56 * 360 - (fVal lon + 180)) + (fVal d - (q : ℚ) / 2 ^ 56 * 360) + (fVal x - (fVal d - 180))| := by
        congr 1; ring
    _ ≤ 1 / 10 ^ 12 := abs_sum_axis_errors_le efix ed er

end Sys2Proof.Machine
end

section
/-! PROOFS. 40_normalizer: NORM and DENORM. -/

namespace Sys2Proof.Machine

open Sys2Proof.Spec

/-- InvalidCoordinate is error 3 with EPOS = 0, and changes STATUS alone. -/
theorem raiseErr_invalidCoordinate (s : State) : raiseErr .invalidCoordinate 0 s = failed s 3 0 := rfl

theorem exec_norm_of_not_isNaN {s : State} (hlat : isNaN s.latIn = false) (hlon : isNaN s.lonIn = false) :
    exec .norm s = .next (done s { s with qlat := normLat s.latIn, qlon := normLon s.lonIn }) := by
  have hgood : badCoordinate s ≠ true := by simp [hlat, hlon]
  exact (exec_norm_ok hgood).trans (congrArg Host.Outcome.next (complete_eq_done rfl))

theorem denormLat_range (q : Fixed) :
    isFinite (denormLat q) = true ∧ -90 ≤ fVal (denormLat q) ∧ fVal (denormLat q) ≤ 90 :=
  latDegrees_range q.isLt.le (latDegrees_denormLat q)

theorem denormLon_range (q : Fixed) :
    isFinite (denormLon q) = true ∧ -180 ≤ fVal (denormLon q) ∧ fVal (denormLon q) ≤ 180 :=
  lonDegrees_range q.isLt.le (lonDegrees_denormLon q)

theorem denormLat_antitone {q q' : Fixed} (h : q.toNat ≤ q'.toNat) : LeF (denormLat q') (denormLat q) :=
  .inr (.inr ⟨(denormLat_range q').1, (denormLat_range q).1,
    latDegrees_antitone q'.isLt.le h (latDegrees_denormLat q) (latDegrees_denormLat q')⟩)

theorem denormLon_monotone {q q' : Fixed} (h : q.toNat ≤ q'.toNat) : LeF (denormLon q) (denormLon q') :=
  .inr (.inr ⟨(denormLon_range q).1, (denormLon_range q').1,
    lonDegrees_monotone q'.isLt.le h (lonDegrees_denormLon q) (lonDegrees_denormLon q')⟩)

theorem exec_denorm (s : State) :
    exec .denorm s = .next (done s { s with ctrLat := denormLat s.qlat, ctrLon := denormLon s.qlon }) :=
  congrArg Host.Outcome.next (complete_eq_done rfl)

/-- Settles O25: on each axis NORM computes the rounded formulas, in the spec's rationals. -/
theorem normWritesFixedPoint : Obligations.NormWritesFixedPoint := by
  refine ⟨soleWord_of_commandNamed rfl (by decide) rfl fun _ => rfl, fun s => ⟨fun hnan => ?_, fun hlat hlon => ?_⟩⟩
  · rw [exec_norm_err ((badCoordinate_iff s).2 hnan), raiseErr_invalidCoordinate]
  · refine ⟨_, _, latFixed_normLat hlat, lonFixed_normLon hlon, ?_⟩
    rw [exec_norm_of_not_isNaN hlat hlon, BitVec.ofNat_toNat, BitVec.setWidth_eq, BitVec.ofNat_toNat, BitVec.setWidth_eq]

/-- Settles O27: on each axis DENORM computes the rounded formulas, in the spec's rationals. -/
theorem denormWritesDegrees : Obligations.DenormWritesDegrees :=
  ⟨soleWord_of_commandNamed rfl (by decide) rfl fun _ => rfl,
    fun s => ⟨_, _, latDegrees_denormLat s.qlat, lonDegrees_denormLon s.qlon, exec_denorm s⟩⟩

/-- Settles O28: DENORM's product lies in [0, 180] or [0, 360], and its last rounding does not leave the range. -/
theorem denormStaysInRange : Obligations.DenormStaysInRange := by
  intro s
  obtain ⟨fx, hlat⟩ := denormLat_range s.qlat
  obtain ⟨fy, hlon⟩ := denormLon_range s.qlon
  exact ⟨_, exec_denorm s, fx, fy, hlat.1, hlat.2, hlon⟩

/-- Settles O29: every rounding on the way keeps order, the infinities are NORM's two ends. -/
theorem normalizationIsMonotone : Obligations.NormalizationIsMonotone := by
  refine ⟨fun s s' t t' hlat hlon hlat' hlon' ht ht' => ?_, fun s s' t t' ht ht' => ?_⟩
  · rw [exec_norm_of_not_isNaN hlat hlon] at ht
    rw [exec_norm_of_not_isNaN hlat' hlon'] at ht'
    cases ht
    cases ht'
    exact ⟨latFixed_antitone (latFixed_normLat hlat) (latFixed_normLat hlat'),
      lonFixed_monotone (lonFixed_normLon hlon) (lonFixed_normLon hlon')⟩
  · rw [exec_denorm] at ht ht'
    cases ht
    cases ht'
    exact ⟨denormLat_antitone, denormLon_monotone⟩

/-- Settles O30: the errors of NORM's two roundings and floor and of DENORM's four roundings add up to less than 1e-12. -/
theorem normDenormRoundTrip : Obligations.NormDenormRoundTrip := by
  intro s flat flon hlat hlon
  have nlat := (isFinite_excludes flat).1
  have nlon := (isFinite_excludes flon).1
  have hweak : (1 / 10 ^ 12 : ℚ) ≤ 1 / 10 ^ 9 := by norm_num
  exact ⟨_, _, exec_norm_of_not_isNaN nlat nlon, exec_denorm _,
    (latDegrees_of_latFixed_near flat hlat (latFixed_normLat nlat) (latDegrees_denormLat _)).trans hweak,
    (lonDegrees_of_lonFixed_near flon hlon (lonFixed_normLon nlon) (lonDegrees_denormLon _)).trans hweak⟩

end Sys2Proof.Machine
end

section
/-! PROOFS. 30_encoding and 60_exceptions: the words of a command with an operand, the state CodeTooLong leaves, and one command
run. -/

namespace Sys2Proof.Machine

open Sys2Proof.Spec

theorem toNat_cmdWord {n : Nat} (h : n ≤ 255) (op : BitVec 4) : (cmdWord n op).toNat = n * 256 + op.toNat := by
  rw [cmdWord, toNat_fields, BitVec.toNat_ofNat, Nat.mod_eq_of_lt (by omega), BitVec.toNat_zero, Nat.zero_mul,
    Nat.add_zero]

/-- An opcode whose row names `mk n` at every operand `n`: its words spell `mk n` where RSV is 0, and nothing elsewhere. -/
theorem operandWords_of_commandNamed {op : BitVec 4} {mk : Nat → Instr} (henc : ∀ n, encode (mk n) = cmdWord n op)
    (hnamed : ∀ n, commandNamed op.toNat n = some (mk n)) : operandWords op.toNat mk := by
  refine ⟨fun n hn => ?_, fun s hs => ?_⟩
  · rw [henc, ← toNat_cmdWord hn, BitVec.ofNat_toNat, BitVec.setWidth_eq]
  · split_ifs with hrsv
    · exact issue_of_decode_ok (decode_eq_ok_iff.2 ⟨hrsv, hs ▸ hnamed _⟩)
    · exact issue_of_not_decode_ok fun i hi => hrsv (decode_eq_ok_iff.1 hi).1

/-- CodeTooLong is error 2 with EPOS = 0, and changes STATUS alone. -/
theorem raiseErr_codeTooLong (s : State) : raiseErr .codeTooLong 0 s = failed s 2 0 := rfl

theorem cmd_of_exec {i : Instr} {s t : State} (h : exec i s = .next t) : cmd i s = t := by
  rw [cmd, h]

end Sys2Proof.Machine
end

section
/-! PROOFS. 41_interleaver: the model's shifts, fields and symbols are the spec's, and DILV of a symbol of (q, r) recovers the
fields it carries. -/

namespace Sys2Proof.Machine

open Sys2Proof.Spec

/-! ## The shifts (R121) -/

theorem shLat_eq_latShift (j : Nat) : shLat j = latShift j := by
  unfold shLat latShift Config.k cumLat evenCount oddCount
  split_ifs <;> omega

theorem shLon_eq_lonShift (j : Nat) : shLon j = lonShift j := by
  unfold shLon lonShift Config.k cumLon evenCount oddCount
  split_ifs <;> omega

/-- The field of position j lies right below the latitude bits the positions before it carry. -/
theorem latbits_add_latw_add_shLat {j : Nat} (h : j < 18) : latbits j + latw j + shLat j = 56 := by
  rw [shLat_eq_latShift]
  unfold latbits latw latShift
  split_ifs <;> omega

theorem lonbits_add_lonw_add_shLon {j : Nat} (h : j < 18) : lonbits j + lonw j + shLon j = 56 := by
  rw [shLon_eq_lonShift]
  unfold lonbits lonw latw lonShift
  split_ifs <;> omega

theorem latbits_succ (j : Nat) : latbits (j + 1) = latbits j + latw j := by
  unfold latbits latw
  split_ifs <;> omega

theorem lonbits_succ (j : Nat) : lonbits (j + 1) = lonbits j + lonw j := by
  unfold lonbits lonw latw
  split_ifs <;> omega

/-! ## The symbol layout (R123, R130) -/

@[simp] theorem unpackT_pack (t : BitVec 3) (w : BitVec 2) : unpackT (pack t w) = t := by
  revert t w; decide

@[simp] theorem unpackW_pack (t : BitVec 3) (w : BitVec 2) : unpackW (pack t w) = w := by
  revert t w; decide

@[simp] theorem pack_unpack (s : Symbol) : pack (unpackT s) (unpackW s) = s := by
  revert s; decide

theorem toNat_pack (t : BitVec 3) (w : BitVec 2) : (pack t w).toNat = spread t.toNat w.toNat := by
  revert t w; decide

theorem pack_eq (t : BitVec 3) (w : BitVec 2) : pack t w = BitVec.ofNat 5 (spread t.toNat w.toNat) := by
  rw [← toNat_pack, BitVec.ofNat_toNat, BitVec.setWidth_eq]

theorem toNat_unpackT (s : Symbol) : (unpackT s).toNat = field3 s.toNat := by
  revert s; decide

theorem toNat_unpackW (s : Symbol) : (unpackW s).toNat = field2 s.toNat := by
  revert s; decide

/-- Settles O35: the 32 pairs and the 32 symbols, each computed. -/
theorem packIsABijection : Obligations.PackIsABijection :=
  ⟨fun t w => ⟨unpackT_pack t w, unpackW_pack t w, toNat_pack t w⟩, pack_unpack⟩

/-! ## The fields of a position, in numbers (R122, R126, R128) -/

theorem fLat_eq (j : Nat) (q : Fixed) : fLat j q = q.toNat / 2 ^ latShift j % 2 ^ latw j := by
  rw [fLat, BitVec.toNat_ushiftRight, Nat.shiftRight_eq_div_pow, shLat_eq_latShift]

theorem fLon_eq (j : Nat) (r : Fixed) : fLon j r = r.toNat / 2 ^ lonShift j % 2 ^ lonw j := by
  rw [fLon, BitVec.toNat_ushiftRight, Nat.shiftRight_eq_div_pow, shLon_eq_lonShift]

theorem symbolAt_eq (j : Nat) (q r : Fixed) : symbolAt j q r = BitVec.ofNat 5 (symbolNat j q.toNat r.toNat) := by
  unfold symbolAt symbolNat
  split_ifs with hj <;> simp [pack_eq, fLat_eq, fLon_eq, lonw, latw, hj]

theorem latField_eq (j : Nat) (s : Symbol) : latField j s = BitVec.ofNat 56 (latPart j s.toNat) := by
  unfold latField latPart
  split_ifs
  · rw [← toNat_unpackW, BitVec.ofNat_toNat]
  · rw [← toNat_unpackT, BitVec.ofNat_toNat]

theorem lonField_eq (j : Nat) (s : Symbol) : lonField j s = BitVec.ofNat 56 (lonPart j s.toNat) := by
  unfold lonField lonPart
  split_ifs
  · rw [← toNat_unpackT, BitVec.ofNat_toNat]
  · rw [← toNat_unpackW, BitVec.ofNat_toNat]

theorem ofNat_shiftLeft (w a n : Nat) : BitVec.ofNat w a <<< n = BitVec.ofNat w (a * 2 ^ n) := by
  apply BitVec.eq_of_toNat_eq
  simp [Nat.shiftLeft_eq]

theorem orLat_eq (j : Nat) (s : Symbol) (q : Fixed) :
    orLat j s q = q ||| BitVec.ofNat 56 (latPart j s.toNat * 2 ^ latShift j) := by
  rw [orLat, latField_eq, shLat_eq_latShift, ofNat_shiftLeft]

theorem orLon_eq (j : Nat) (s : Symbol) (r : Fixed) :
    orLon j s r = r ||| BitVec.ofNat 56 (lonPart j s.toNat * 2 ^ lonShift j) := by
  rw [orLon, lonField_eq, shLon_eq_lonShift, ofNat_shiftLeft]

/-! ## The top bits of an axis (R129) -/

theorem getLsbD_topBits (b i : Nat) (q : Fixed) :
    (topBits b q).getLsbD i = (q.getLsbD i && decide (56 - b ≤ i)) := by
  rw [topBits, BitVec.getLsbD_and, BitVec.getLsbD_not, BitVec.getLsbD_ofNat, Nat.testBit_two_pow_sub_one]
  by_cases hi : i < 56
  · simp only [hi, decide_true, Bool.true_and, ← decide_not, not_lt]
  · simp [BitVec.getLsbD_of_ge q i (by omega)]

/-- Taking nothing keeps nothing. -/
theorem topBits_zero (q : Fixed) : topBits 0 q = 0 := by
  apply BitVec.eq_of_getLsbD_eq
  intro i hi
  rw [getLsbD_topBits, decide_eq_false (by omega), Bool.and_false]
  exact BitVec.getLsbD_zero.symm

/-- ORing the next w bits in below the top b bits: bit i comes from neither operand, from the field, or from the top. -/
theorem topBits_or_field {b w sh : Nat} (h : b + w + sh = 56) (q : Fixed) :
    topBits b q ||| BitVec.ofNat 56 ((q >>> sh).toNat % 2 ^ w) <<< sh = topBits (b + w) q := by
  apply BitVec.eq_of_getLsbD_eq
  intro i hi
  rw [BitVec.getLsbD_or, getLsbD_topBits, getLsbD_topBits, BitVec.getLsbD_shiftLeft, BitVec.getLsbD_ofNat,
    Nat.testBit_mod_two_pow, BitVec.testBit_toNat, BitVec.getLsbD_ushiftRight]
  have htop : 56 - b ≤ i ↔ sh + w ≤ i := by omega
  have hboth : 56 - (b + w) ≤ i ↔ sh ≤ i := by omega
  simp only [htop, hboth]
  obtain hbelow | hle := lt_or_ge i sh
  · simp [hbelow, show ¬ sh + w ≤ i by omega]
  · have hfield : i - sh < w ↔ ¬ sh + w ≤ i := by omega
    have hbound : i - sh < 56 := by omega
    by_cases habove : sh + w ≤ i <;> simp [hfield, hbound, hle, hi, habove, Nat.add_sub_cancel' hle]

/-! ## De-interleaving a symbol of (q, r) (R128, R129) -/

theorem latField_symbolAt (j : Nat) (q r : Fixed) : latField j (symbolAt j q r) = BitVec.ofNat 56 (fLat j q) := by
  unfold latField symbolAt fLat latw
  split_ifs
  · rw [unpackW_pack, BitVec.setWidth_ofNat_of_le_of_lt (by decide) (Nat.mod_lt _ (by decide))]
  · rw [unpackT_pack, BitVec.setWidth_ofNat_of_le_of_lt (by decide) (Nat.mod_lt _ (by decide))]

theorem lonField_symbolAt (j : Nat) (q r : Fixed) : lonField j (symbolAt j q r) = BitVec.ofNat 56 (fLon j r) := by
  unfold lonField symbolAt fLon lonw latw
  split_ifs
  · rw [unpackT_pack, BitVec.setWidth_ofNat_of_le_of_lt (by decide) (Nat.mod_lt _ (by decide))]
  · rw [unpackW_pack, BitVec.setWidth_ofNat_of_le_of_lt (by decide) (Nat.mod_lt _ (by decide))]

/-- DILV j of the symbol of position j extends the recovered top bits by the position's field. -/
theorem orLat_symbolAt_topBits {j : Nat} (h : j < 18) (q r : Fixed) :
    orLat j (symbolAt j q r) (topBits (latbits j) q) = topBits (latbits (j + 1)) q := by
  rw [orLat, latField_symbolAt, fLat, topBits_or_field (latbits_add_latw_add_shLat h), latbits_succ]

theorem orLon_symbolAt_topBits {j : Nat} (h : j < 18) (q r : Fixed) :
    orLon j (symbolAt j q r) (topBits (lonbits j) r) = topBits (lonbits (j + 1)) r := by
  rw [orLon, lonField_symbolAt, fLon, topBits_or_field (lonbits_add_lonw_add_shLon h), lonbits_succ]

theorem recoverUnits_succ {j : Nat} (h : j < 18) (q r : Fixed) (s : State) :
    (recoverUnits q r (j + 1) s).qlat = orLat j (symbolAt j q r) (recoverUnits q r j s).qlat ∧
    (recoverUnits q r (j + 1) s).qlon = orLon j (symbolAt j q r) (recoverUnits q r j s).qlon := by
  rw [recoverUnits, cmd_of_exec (exec_dilv_ok h _), ← symbolAt_eq]
  exact ⟨rfl, rfl⟩

/-- Settles O36, by induction on the length: each DILV extends the recovered bits of both axes by one field. -/
theorem dilvRecoversTheLowerCorner : Obligations.DilvRecoversTheLowerCorner := by
  intro q r l s hl hq hr
  induction l with
  | zero => exact ⟨hq.trans (topBits_zero q).symm, hr.trans (topBits_zero r).symm⟩
  | succ j ih =>
    obtain ⟨ihq, ihr⟩ := ih (by omega)
    obtain ⟨hlat, hlon⟩ := recoverUnits_succ (by omega : j < 18) q r s
    rw [hlat, hlon, ihq, ihr]
    exact ⟨orLat_symbolAt_topBits hl q r, orLon_symbolAt_topBits hl q r⟩

/-! ## The commands -/

/-- Settles O31: 0x0003 is the one word of its opcode, and the arm completes from cleared accumulators. -/
theorem clrqClearsTheAccumulators : Obligations.ClrqClearsTheAccumulators :=
  ⟨soleWord_of_commandNamed rfl (by decide) rfl fun _ => rfl,
    fun _ => congrArg Host.Outcome.next (complete_eq_done rfl)⟩

/-- Settles O32: the symbol the model packs is the one the spec's arithmetic spreads, at the spec's shifts. -/
theorem ilvBuildsTheSymbol : Obligations.IlvBuildsTheSymbol := by
  refine ⟨operandWords_of_commandNamed (op := 0x4) (fun _ => rfl) fun _ => rfl, fun s j => ⟨fun hj => ?_, fun hj => ?_⟩⟩
  · rw [exec_ilv_err (by omega), raiseErr_codeTooLong]
  · rw [exec_ilv_ok (by omega), symbolAt_eq]
    exact congrArg Host.Outcome.next (complete_eq_done rfl)

/-- Settles O33: the fields the model unpacks are those of the spec's arithmetic, at the spec's shifts. -/
theorem dilvOrsTheFields : Obligations.DilvOrsTheFields := by
  refine ⟨operandWords_of_commandNamed (op := 0x5) (fun _ => rfl) fun _ => rfl, fun s j => ⟨fun hj => ?_, fun hj => ?_⟩⟩
  · rw [exec_dilv_err (by omega), raiseErr_codeTooLong]
  · rw [exec_dilv_ok (by omega), orLat_eq, orLon_eq]
    exact congrArg Host.Outcome.next (complete_eq_done rfl)

end Sys2Proof.Machine
end

section
/-! PROOFS. 42_alphabet: the ROM and the index invert each other, and MAP, UNMAP and ENCODE write only what they give. -/

namespace Sys2Proof.Machine

open Sys2Proof.Spec

/-! ## The ROM and the index (R140, R141) -/

@[simp] theorem indexOfChar_rom (i : Symbol) : indexOfChar (rom i) = some i := by
  revert i; decide

/-- The ROM's characters are its 32 listed bytes: one with no entry would have no index. -/
theorem inAlphabet_rom (i : Symbol) : inAlphabet (rom i) := by
  by_contra h
  rw [← indexOfChar_eq_none_iff, indexOfChar_rom] at h
  cases h

/-- Every byte of the alphabet is the ROM's at the place where the table lists it. -/
theorem exists_rom_eq {c : CharByte} (h : inAlphabet c) : ∃ i : Symbol, rom i = c := by
  obtain ⟨n, hn, rfl⟩ := List.mem_iff_getElem.1 ((mem_romTable_iff c).2 h)
  have hsymbol : (BitVec.ofNat 5 n).toNat = n := Nat.mod_eq_of_lt hn
  exact ⟨BitVec.ofNat 5 n, by rw [rom, hsymbol, List.getElem_eq_getD]⟩

theorem charOf_eq_rom {i : Nat} (h : i < 32) : charOf i = rom (BitVec.ofNat 5 i) := by
  rw [rom_eq_charOf, BitVec.toNat_ofNat, Nat.mod_eq_of_lt h]

/-! ## MAP and UNMAP (R142, R144) -/

/-- InvalidSymbol is error 1, and changes STATUS alone. -/
theorem raiseErr_invalidSymbol (p : BitVec 8) (s : State) : raiseErr .invalidSymbol p s = failed s 1 p := by
  have hword : statusRaised .invalidSymbol p = p ++ 0x1#4 ++ 1#4 := by revert p; decide
  rw [raiseErr, hword]; rfl

theorem exec_map (s : State) : exec .map s = .next (done s { s with char := rom s.sym }) :=
  congrArg Host.Outcome.next (complete_eq_done rfl)

theorem exec_unmap_of_char_eq_rom {s : State} {i : Symbol} (h : s.char = rom i) :
    exec .unmap s = .next (done s { s with sym := i }) :=
  (exec_unmap_ok (h ▸ indexOfChar_rom i)).trans (congrArg Host.Outcome.next (complete_eq_done rfl))

theorem exec_unmap_of_not_inAlphabet {s : State} (h : ¬ inAlphabet s.char) :
    exec .unmap s = .next (failed s 1 0) := by
  rw [exec_unmap_err ((indexOfChar_eq_none_iff _).2 h), raiseErr_invalidSymbol]

/-- Settles O38: a byte of the alphabet is the ROM's at its index, which UNMAP finds; any other has no index. -/
theorem unmapFindsTheSymbol : Obligations.UnmapFindsTheSymbol :=
  ⟨soleWord_of_commandNamed rfl (by decide) rfl fun _ => rfl,
    fun _ => ⟨fun _ hi hc => exec_unmap_of_char_eq_rom (hc.trans (charOf_eq_rom hi)), exec_unmap_of_not_inAlphabet⟩⟩

/-- Settles O39: the index of a ROM character is its symbol, so UNMAP undoes MAP; a byte of the alphabet is a ROM character,
so MAP undoes UNMAP. -/
theorem alphabetIsClosed : Obligations.AlphabetIsClosed := by
  refine fun s => ⟨⟨_, _, exec_map s, exec_unmap_of_char_eq_rom rfl, rfl⟩, fun hin => ?_, fun hout => ?_⟩
  · obtain ⟨i, hi⟩ := exists_rom_eq hin
    exact ⟨_, _, exec_unmap_of_char_eq_rom hi.symm, exec_map _, hi⟩
  · refine ⟨_, exec_unmap_err ((indexOfChar_eq_none_iff _).2 hout), ?_⟩
    rw [raiseErr_status, errOf_statusRaised]; rfl

/-- Settles O37: 0x0006 is the one word of its opcode, and the ROM holds the listed bytes. -/
theorem mapWritesTheCharacter : Obligations.MapWritesTheCharacter :=
  ⟨soleWord_of_commandNamed rfl (by decide) rfl fun _ => rfl, fun s => by rw [exec_map, rom_eq_charOf]⟩

/-! ## The characters ENCODE writes (R143, R182) -/

/-- An ENCODE that reports no error had a valid length and coordinate, and wrote the code. -/
theorem exec_encode_completed {l : Nat} {s t : State} (h : exec (.encode l) s = .next t) (he : errOf t.status = 0) :
    l ≤ 18 ∧ t = complete (withCode l (normLat s.latIn) (normLon s.lonIn) s) := by
  have hraised : ∀ e p, exec (.encode l) s ≠ .next (raiseErr e p s) := by
    intro e p hr
    cases h.symm.trans hr
    rw [raiseErr_status, errOf_statusRaised] at he
    exact errValue_ne_zero e he
  by_cases hl : l ≤ 18
  · by_cases hbad : badCoordinate s = true
    · exact absurd (exec_encode_nan hl hbad) (hraised _ _)
    · rw [exec_encode_ok hl hbad] at h
      cases h
      exact ⟨hl, rfl⟩
  · exact absurd (exec_encode_err hl s) (hraised _ _)

/-- Settles O40: both commands write ROM characters, ENCODE into every slot below its length. -/
theorem writtenCharactersAreInTheAlphabet : Obligations.WrittenCharactersAreInTheAlphabet := by
  refine ⟨fun s => ⟨_, exec_map s, inAlphabet_rom s.sym⟩, fun s t l h he j hj => ?_⟩
  obtain ⟨hl, rfl⟩ := exec_encode_completed h he
  rw [complete_code, withCode_code, slot_fillSlots, if_pos ⟨hj, by omega⟩]
  exact inAlphabet_rom _

end Sys2Proof.Machine
end

section
/-! PROOFS. 43_precision: where a rounding is exact, the half-cells and half-extents of a length, and the metric formulas. -/

namespace Sys2Proof.Machine

open Sys2Proof.Spec

/-! ## Exact roundings (00_scope R11) -/

/-- Every j·2^s units with at most 53 significant bits, below the overflow bound, is the value of a finite pattern. -/
theorem exists_fVal_eq {j s : Nat} (hj : j ≤ 2 ^ 53) (hs : s ≤ 2044) :
    ∃ y, isFinite y = true ∧ fVal y = j * 2 ^ s / unitsPerOne := by
  obtain ⟨m, hm⟩ := exists_bodyMag_eq s hj
  have hfin : m < infBody := by
    refine bodyMag_strictMono.lt_iff_lt.1 (lt_of_lt_of_eq ?_ bodyMag_infBody.symm)
    calc bodyMag m ≤ 2 ^ 53 * 2 ^ s := hm.trans_le (Nat.mul_le_mul_right _ hj)
      _ = 2 ^ (53 + s) := (pow_add ..).symm
      _ < 2 ^ 2098 := Nat.pow_lt_pow_right one_lt_two (by omega)
  have hm63 : m < 2 ^ 63 := hfin.trans (by decide)
  refine ⟨ofBody false m, by rwa [isFinite_iff, fBody_ofBody hm63], ?_⟩
  rw [fVal_ofBody _ hm63, hm, sgn_false, one_mul, Nat.cast_mul, Nat.cast_pow, Nat.cast_two]

/-- A rounding of a value of binary64 is that value. -/
theorem RoundsTo.exact_of_fVal_eq {x : ℚ} {r y : F64} (h : RoundsTo x r) (hy : isFinite y = true) (hx : fVal y = x) :
    isFinite r = true ∧ fVal r = x := by
  have hlt : |x| < overflowBound := hx ▸ abs_fVal_lt_overflowBound hy
  exact ⟨h.finite hlt, le_antisymm ((h.le hlt hy hx.ge).trans_eq hx) (hx.ge.trans (h.ge hlt hy hx.le))⟩

/-- A rounding of j·2^k/2^m is exact while j has at most 53 bits and the exponents stay in range. -/
theorem RoundsTo.exact {x : ℚ} {r : F64} (h : RoundsTo x r) {j k m : Nat} (hx : x = j * 2 ^ k / 2 ^ m)
    (hj : j ≤ 2 ^ 53) (hk : k ≤ 970) (hm : m ≤ 1074) : isFinite r = true ∧ fVal r = x := by
  obtain ⟨y, hy, hval⟩ := exists_fVal_eq hj (s := k + (1074 - m)) (by omega)
  refine h.exact_of_fVal_eq hy (hval.trans ?_)
  have hunits : unitsPerOne = 2 ^ m * 2 ^ (1074 - m) := by rw [unitsPerOne_eq, ← pow_add, Nat.add_sub_cancel' hm]
  rw [hx, hunits, pow_add, ← mul_assoc, mul_div_mul_right _ _ (by positivity)]

/-! ## The half-cells and half-extents of a length (R160, R161) -/

theorem latbits_le {l : Nat} (h : l ≤ 18) : latbits l ≤ 45 := by unfold latbits; omega

theorem lonbits_le {l : Nat} (h : l ≤ 18) : lonbits l ≤ 45 := by unfold lonbits; omega

theorem hqLat_eq (l : Nat) : hqLat l = 2 ^ (55 - latbits l) := rfl

theorem hqLon_eq (l : Nat) : hqLon l = 2 ^ (55 - lonbits l) := rfl

theorem addHalf_eq (q : Fixed) (half : Nat) : addHalf q half = BitVec.ofNat 56 ((q.toNat + half) % 2 ^ 56) := by
  apply BitVec.eq_of_toNat_eq
  simp [addHalf]

/-- A half-cell of 2^(55 − b) units, on an axis of extent 2n degrees, is n/2^b degrees: the three operations are exact. -/
theorem halfExtent_exact {n b : Nat} {C : F64} (hC : isFinite C = true) (hval : fVal C = (2 * n : ℕ))
    (hn : 2 * n ≤ 2 ^ 53) (hb : b ≤ 55) :
    isFinite (fdiv (fmul (toF64 (2 ^ (55 - b))) C) c2p56) = true ∧
      fVal (fdiv (fmul (toF64 (2 ^ (55 - b))) C) c2p56) = n / 2 ^ b := by
  obtain ⟨hf, hv⟩ := (toF64_roundsTo (2 ^ (55 - b))).exact (j := 1) (k := 55 - b) (m := 0) (by simp) (by norm_num)
    (by omega) (by norm_num)
  have hmul := fmul_roundsTo hf hC
  rw [hv, hval] at hmul
  obtain ⟨hf', hv'⟩ := hmul.exact (j := 2 * n) (k := 55 - b) (m := 0) (by push_cast; ring) hn (by omega) (by norm_num)
  have hdiv := fdiv_roundsTo hf' (b := c2p56) (by decide) (by decide)
  rw [hv', fVal_c2p56] at hdiv
  obtain ⟨hf'', hv''⟩ := hdiv.exact (j := 2 * n) (k := 55 - b) (m := 56) (by push_cast; ring) hn (by omega) (by norm_num)
  refine ⟨hf'', hv''.trans ?_⟩
  have hpow : (2 : ℚ) ^ 56 = 2 * (2 ^ (55 - b) * 2 ^ b) := by rw [← pow_add, Nat.sub_add_cancel hb, ← pow_succ']
  rw [hpow]
  push_cast
  field_simp

theorem hdegLat_exact {l : Nat} (h : l ≤ 18) :
    isFinite (hdegLat l) = true ∧ fVal (hdegLat l) = 90 / 2 ^ latbits l :=
  halfExtent_exact (n := 90) (by decide) (fVal_c180.trans (by norm_num)) (by norm_num) ((latbits_le h).trans (by norm_num))

theorem hdegLon_exact {l : Nat} (h : l ≤ 18) :
    isFinite (hdegLon l) = true ∧ fVal (hdegLon l) = 180 / 2 ^ lonbits l :=
  halfExtent_exact (n := 180) (by decide) (fVal_c360.trans (by norm_num)) (by norm_num) ((lonbits_le h).trans (by norm_num))

/-! ## The metric formulas (R165) -/

/-- The rounded quotient PI64/180 is the pattern the spec gives for RAD. -/
theorem phi_eq_phiOf (lat : F64) : phi lat = phiOf lat := congrArg (fmul lat) (by decide +kernel)

theorem mpdLat_eq_mpdLatOf (lat : F64) : mpdLat cos64 lat = mpdLatOf lat := by
  rw [mpdLat, phi_eq_phiOf]; rfl

theorem mpdLon_eq_mpdLonOf (lat : F64) : mpdLon cos64 lat = mpdLonOf lat := by
  rw [mpdLon, mpdLat_eq_mpdLatOf, phi_eq_phiOf, mpdLonOf]

/-! ## The commands -/

/-- Settles O41: a length of at most 18 leaves both exponents in range, so the model's three operations are exact. -/
theorem halfWritesExactHalfExtents : Obligations.HalfWritesExactHalfExtents := by
  refine ⟨operandWords_of_commandNamed (op := 0x8) (fun _ => rfl) fun _ => rfl, fun s l => ⟨fun hl => ?_, fun hl => ?_⟩⟩
  · rw [exec_half_err (by omega), raiseErr_codeTooLong]
  · obtain ⟨hflat, hvlat⟩ := hdegLat_exact hl
    obtain ⟨hflon, hvlon⟩ := hdegLon_exact hl
    exact ⟨_, _, hflat, hflon, hvlat, hvlon,
      (exec_half_ok hl s).trans (congrArg Host.Outcome.next (complete_eq_done rfl))⟩

/-- Settles O42: a sum of 56-bit words is the sum of their numbers modulo 2^56. -/
theorem centerAddsTheHalfCell : Obligations.CenterAddsTheHalfCell := by
  refine ⟨operandWords_of_commandNamed (op := 0x9) (fun _ => rfl) fun _ => rfl, fun s l => ⟨fun hl => ?_, fun hl => ?_⟩⟩
  · rw [exec_center_err (by omega), raiseErr_codeTooLong]
  · rw [exec_center_ok hl, addHalf_eq, addHalf_eq, hqLat_eq, hqLon_eq]
    exact congrArg Host.Outcome.next (complete_eq_done rfl)

/-- Settles O44: the model's formulas are the spec's, with RAD computed where the spec gives its pattern. -/
theorem metersEvaluatesTheFormulas : Obligations.MetersEvaluatesTheFormulas := by
  refine ⟨soleWord_of_commandNamed rfl (by decide) rfl fun _ => rfl, fun s => ?_⟩
  rw [← mpdLat_eq_mpdLatOf, ← mpdLon_eq_mpdLonOf]
  exact congrArg Host.Outcome.next (complete_eq_done rfl)

end Sys2Proof.Machine
end

section
/-! PROOFS. 44_codec: NOP, and what every unit of a sequence does after a command that completed. -/

namespace Sys2Proof.Machine

open Sys2Proof.Spec

/-! ## Sequences of completing commands (10_state R24 to R26) -/

/-- STATUS as one completing command leaves it is as the next one leaves it. -/
theorem done_done (s u v : State) : done (done s u) v = done s v := by
  simp only [done, BitVec.and_assoc, BitVec.and_self]

/-- A command that completes after a completed one writes its registers, and keeps STATUS. -/
theorem cmd_done {i : Instr} {s u v : State}
    (h : exec i (done s u) = .next (complete { v with status := (done s u).status })) :
    cmd i (done s u) = done s v :=
  (cmd_of_exec h).trans ((complete_eq_done rfl).trans (done_done s u v))

/-- Settles O47: 0x0000 is the one word of its opcode, and the arm completes from the state as it is. -/
theorem nopOnlyCompletes : Obligations.NopOnlyCompletes :=
  ⟨soleWord_of_commandNamed rfl (by decide) rfl fun _ => rfl,
    fun _ => congrArg Host.Outcome.next (complete_eq_done rfl)⟩

/-! ## The host's copies (20_memory R52, R53) -/

theorem wr_of_regAt {n : Nat} {r : Reg} (h : regAt (BitVec.ofNat 6 n) = some r) (hr : r ≠ .cmd) (d : PortWord)
    (s : State) : wr n d s = writeReg d s r := by
  simp only [wr, hostWrite, h, if_neg hr]

theorem regAt_slot {j : Nat} (h : j < 18) : regAt (BitVec.ofNat 6 (0x20 + j)) = some (.code ⟨j, h⟩) :=
  regAt_indexOf (.code ⟨j, h⟩)

theorem setWidth_port_byte (b : CharByte) : (b.setWidth 64).setWidth 8 = b := by
  rw [BitVec.setWidth_setWidth_of_le _ (by decide), BitVec.setWidth_eq]

/-- A host copy of CHAR into CODE[j]. -/
theorem wr_slot_hostRead_char {j : Nat} (h : j < 18) (s : State) :
    wr (0x20 + j) (hostRead s 0x09#6) s = { s with code := setSlot s.code j s.char } := by
  rw [wr_of_regAt (regAt_slot h) nofun]
  exact congrArg (fun b => { s with code := setSlot s.code j b }) (setWidth_port_byte s.char)

/-- A host copy of CODE[j] into CHAR. -/
theorem wr_char_hostRead_slot {j : Nat} (h : j < 18) (s : State) :
    wr 0x09 (hostRead s (BitVec.ofNat 6 (0x20 + j))) s = { s with char := slot s.code j } := by
  rw [wr_of_regAt (r := .char) rfl nofun, hostRead, regAt_slot h]
  exact congrArg (fun b => { s with char := b }) (setWidth_port_byte (slot s.code j))

end Sys2Proof.Machine
end

section
/-! PROOFS. 44_codec: ENCODE. -/

namespace Sys2Proof.Machine

open Sys2Proof.Spec

/-! ## The code of a coordinate (R181) -/

theorem spread_lt (t w : Nat) : spread t w < 32 := by unfold spread; omega

theorem symbolNat_lt (j q r : Nat) : symbolNat j q r < 32 := by
  unfold symbolNat
  split_ifs <;> exact spread_lt ..

theorem codeChar_eq (q r : Fixed) (j : Nat) : codeChar q r j = charOf (symbolNat j q.toNat r.toNat) := by
  rw [codeChar, symbolAt_eq, charOf_eq_rom (symbolNat_lt ..)]

theorem badCoordinate_of_not_isNaN {s : State} (hlat : isNaN s.latIn = false) (hlon : isNaN s.lonIn = false) :
    badCoordinate s ≠ true := by
  simp [hlat, hlon]

/-- Settles O48: the slots below L are filled from the symbols of the spec's arithmetic, and no others. -/
theorem encodeWritesTheCode : Obligations.EncodeWritesTheCode := by
  refine ⟨operandWords_of_commandNamed (op := 0xB) (fun _ => rfl) fun _ => rfl,
    fun s l => ⟨fun hl => ?_, fun hl hnan => ?_, fun hl hlat hlon => ?_⟩⟩
  · rw [exec_encode_err (by omega), raiseErr_codeTooLong]
  · rw [exec_encode_nan hl ((badCoordinate_iff s).2 hnan), raiseErr_invalidCoordinate]
  · refine ⟨_, _, _, exec_encode_ok hl (badCoordinate_of_not_isNaN hlat hlon), latFixed_normLat hlat,
      lonFixed_normLon hlon, fun j hj => ?_, fun j hj => ?_, ?_⟩
    · rw [complete_code, withCode_code, slot_fillSlots, if_pos ⟨hj, by omega⟩, codeChar_eq]
    · rw [complete_code, withCode_code, slot_fillSlots, if_neg (by omega)]
    · simp only [BitVec.ofNat_toNat, BitVec.setWidth_eq]
      exact complete_eq_done rfl

/-! ## ENCODE as its sequence of units (R183) -/

/-- ILV j, MAP and the copy write the character of position j into CODE[j]. -/
theorem encodeUnits_succ {j : Nat} (h : j < 18) {s t u : State} (hu : encodeUnits j t = done s u) :
    encodeUnits (j + 1) t = done s { u with
      sym := symbolAt j u.qlat u.qlon
      char := codeChar u.qlat u.qlon j
      code := setSlot u.code j (codeChar u.qlat u.qlon j) } := by
  have hilv : cmd (.ilv j) (done s u) = done s { u with sym := symbolAt j u.qlat u.qlon } :=
    cmd_done (exec_ilv_ok h _)
  have hmap : ∀ v, cmd .map (done s v) = done s { v with char := rom v.sym } := fun v => cmd_done rfl
  rw [encodeUnits, hu, hilv, hmap, wr_slot_hostRead_char h]
  rfl

/-- The units of the positions below n fill the slots below n, and SYM and CHAR with what the last of them left. -/
theorem encodeUnits_eq (s u : State) {n : Nat} (h : n ≤ 18) : ∃ y c, encodeUnits n (done s u) = done s { u with
    sym := y
    char := c
    code := fillSlots (codeChar u.qlat u.qlon) n u.code } := by
  induction n with
  | zero => exact ⟨u.sym, u.char, rfl⟩
  | succ j ih =>
    obtain ⟨y, c, hj⟩ := ih (by omega)
    exact ⟨_, _, encodeUnits_succ h hj⟩

/-- Settles O50, by induction on the length: each round of units fills the next slot. -/
theorem encodeIsTheUnitSequence : Obligations.EncodeIsTheUnitSequence := by
  intro s l hl hlat hlon
  obtain ⟨y, c, hunits⟩ := encodeUnits_eq s { s with qlat := normLat s.latIn, qlon := normLon s.lonIn } hl
  rw [exec_encode_ok hl (badCoordinate_of_not_isNaN hlat hlon), complete_eq_done rfl,
    cmd_of_exec (exec_norm_of_not_isNaN hlat hlon), hunits, wr_of_regAt (r := .codeLen) rfl nofun, writeReg,
    BitVec.setWidth_ofNat_of_le (by decide)]
  rfl

end Sys2Proof.Machine
end

section
/-! PROOFS. 44_codec: DECODE. -/

namespace Sys2Proof.Machine

open Sys2Proof.Spec

/-! ## The corner of a cell, as a number (41_interleaver R121, R129) -/

/-- On one axis the field of position j has width `w j`, and lies below the `b j` bits of the positions before it, `sh j`
bits from the bottom. -/
structure FieldLayout (w sh b : Nat → Nat) : Prop where
  zero : b 0 = 0
  succ : ∀ j, b (j + 1) = b j + w j
  place : ∀ j < 18, b j + w j + sh j = 56

theorem latLayout : FieldLayout latw latShift latbits :=
  ⟨rfl, latbits_succ, fun j hj => shLat_eq_latShift j ▸ latbits_add_latw_add_shLat hj⟩

theorem lonLayout : FieldLayout lonw lonShift lonbits :=
  ⟨rfl, lonbits_succ, fun j hj => shLon_eq_lonShift j ▸ lonbits_add_lonw_add_shLon hj⟩

section layout
variable {w sh b p : Nat → Nat} (L : FieldLayout w sh b)
include L

/-- The corner is a whole number of cells, one of the 2^(b l) there are. -/
theorem FieldLayout.sum_eq_cells {l : Nat} (hl : l ≤ 18) (hp : ∀ j < l, p j < 2 ^ w j) :
    ∃ n < 2 ^ b l, ∑ j ∈ Finset.range l, p j * 2 ^ sh j = n * 2 ^ (56 - b l) := by
  induction l with
  | zero => exact ⟨0, by positivity, by simp⟩
  | succ j ih =>
    obtain ⟨n, hn, hsum⟩ := ih (by omega) fun i hi => hp i (by omega)
    have hplace := L.place j hl
    have hcell : 56 - b j = w j + sh j := by omega
    have hcell' : 56 - b (j + 1) = sh j := by rw [L.succ]; omega
    refine ⟨n * 2 ^ w j + p j, ?_, ?_⟩
    · calc n * 2 ^ w j + p j < (n + 1) * 2 ^ w j := by linarith [hp j (Nat.lt_succ_self j)]
        _ ≤ 2 ^ b j * 2 ^ w j := Nat.mul_le_mul_right _ hn
        _ = 2 ^ b (j + 1) := by rw [L.succ, pow_add]
    · rw [Finset.sum_range_succ, hsum, hcell, hcell', pow_add, add_mul, mul_assoc]

/-- ORing in the next field adds it. -/
theorem FieldLayout.sum_or_field {j : Nat} (hj : j < 18) (hp : ∀ i < j + 1, p i < 2 ^ w i) :
    (∑ i ∈ Finset.range j, p i * 2 ^ sh i) ||| (p j * 2 ^ sh j) = ∑ i ∈ Finset.range (j + 1), p i * 2 ^ sh i := by
  obtain ⟨n, -, hsum⟩ := L.sum_eq_cells hj.le fun i hi => hp i (by omega)
  have hcell : 56 - b j = w j + sh j := by have := L.place j hj; omega
  have hfield : p j * 2 ^ sh j < 2 ^ (56 - b j) := by
    rw [hcell, pow_add]
    exact Nat.mul_lt_mul_of_pos_right (hp j (Nat.lt_succ_self j)) (by positivity)
  rw [Finset.sum_range_succ, hsum, mul_comm n, Nat.two_pow_add_eq_or_of_lt hfield]

/-- Registers that start at 0 and OR in field after field hold the sum of the fields. -/
theorem FieldLayout.corner_eq {corner : Nat → Fixed} {l : Nat} (hl : l ≤ 18) (hp : ∀ j < l, p j < 2 ^ w j)
    (hzero : corner 0 = 0) (hsucc : ∀ j < l, corner (j + 1) = corner j ||| BitVec.ofNat 56 (p j * 2 ^ sh j)) :
    corner l = BitVec.ofNat 56 (∑ j ∈ Finset.range l, p j * 2 ^ sh j) := by
  induction l with
  | zero => exact hzero
  | succ j ih =>
    rw [hsucc j (Nat.lt_succ_self j), ih (by omega) (fun i hi => hp i (by omega)) (fun i hi => hsucc i (by omega)),
      ← BitVec.ofNat_or, L.sum_or_field hl hp]

/-- The center of the corner's cell lies below 2^56. -/
theorem FieldLayout.sum_add_half_lt {l : Nat} (hl : l ≤ 18) (hb : b l ≤ 55) (hp : ∀ j < l, p j < 2 ^ w j) :
    (∑ j ∈ Finset.range l, p j * 2 ^ sh j) + 2 ^ (55 - b l) < 2 ^ 56 := by
  obtain ⟨n, hn, hsum⟩ := L.sum_eq_cells hl hp
  have hhalf : 2 ^ (55 - b l) < 2 ^ (56 - b l) := Nat.pow_lt_pow_right one_lt_two (by omega)
  calc _ < (n + 1) * 2 ^ (56 - b l) := by rw [hsum]; linarith
    _ ≤ 2 ^ b l * 2 ^ (56 - b l) := Nat.mul_le_mul_right _ hn
    _ = 2 ^ 56 := by rw [← pow_add, Nat.add_sub_cancel' (by omega)]

end layout

theorem field2_lt (sym : Nat) : field2 sym < 4 := by unfold field2; omega

theorem field3_lt (sym : Nat) : field3 sym < 8 := by unfold field3; omega

theorem latPart_lt (j sym : Nat) : latPart j sym < 2 ^ latw j := by
  unfold latPart latw
  split_ifs
  · exact field2_lt sym
  · exact field3_lt sym

theorem lonPart_lt (j sym : Nat) : lonPart j sym < 2 ^ lonw j := by
  unfold lonPart lonw latw
  split_ifs
  · exact field3_lt sym
  · exact field2_lt sym

/-! ## The code in the buffer (R184) -/

theorem inAlphabet_charOf {i : Nat} (h : i < 32) : inAlphabet (charOf i) := charOf_eq_rom h ▸ inAlphabet_rom _

theorem toNat_codeSymbol {c : CodeBuffer} {j i : Nat} (hi : i < 32) (h : slot c j = charOf i) :
    (codeSymbol c j).toNat = i := by
  rw [codeSymbol, h, charOf_eq_rom hi, indexOfChar_rom, Option.getD_some, BitVec.toNat_ofNat, Nat.mod_eq_of_lt hi]

theorem indexOfChar_slot {c : CodeBuffer} {j : Nat} (h : inAlphabet (slot c j)) :
    indexOfChar (slot c j) = some (codeSymbol c j) := by
  obtain ⟨i, hi⟩ := exists_rom_eq h
  rw [codeSymbol, ← hi, indexOfChar_rom, Option.getD_some]

theorem firstInvalid_eq_none_iff {c : CodeBuffer} {l : Nat} :
    firstInvalid c l = none ↔ ∀ j < l, inAlphabet (slot c j) := by
  simp only [firstInvalid_none, Ne, indexOfChar_eq_none_iff, not_not]

theorem firstInvalid_eq_some {c : CodeBuffer} {l j : Nat} (hj : j < l) (hbad : ¬ inAlphabet (slot c j))
    (hgood : ∀ k < j, inAlphabet (slot c k)) : firstInvalid c l = some j := by
  cases h : firstInvalid c l with
  | none => exact absurd (firstInvalid_eq_none_iff.1 h j hj) hbad
  | some i =>
    obtain ⟨hi, hbelow⟩ := firstInvalid_spec h
    have hij : ¬ i < j := fun hlt => (indexOfChar_eq_none_iff _).1 hi (hgood i hlt)
    have hji : ¬ j < i := fun hlt => hbelow j hlt ((indexOfChar_eq_none_iff _).2 hbad)
    rw [show i = j by omega]

section corner
variable {c : CodeBuffer} {l : Nat} {f : Nat → Nat} (hl : l ≤ 18) (hf : ∀ j < l, f j < 32 ∧ slot c j = charOf (f j))
include hl hf

theorem cornerLat_eq : cornerLat c l = BitVec.ofNat 56 (∑ j ∈ Finset.range l, latPart j (f j) * 2 ^ latShift j) := by
  refine latLayout.corner_eq hl (fun j _ => latPart_lt ..) rfl fun j hj => ?_
  obtain ⟨hlt, hslot⟩ := hf j hj
  rw [cornerLat, orLat_eq, toNat_codeSymbol hlt hslot]

theorem cornerLon_eq : cornerLon c l = BitVec.ofNat 56 (∑ j ∈ Finset.range l, lonPart j (f j) * 2 ^ lonShift j) := by
  refine lonLayout.corner_eq hl (fun j _ => lonPart_lt ..) rfl fun j hj => ?_
  obtain ⟨hlt, hslot⟩ := hf j hj
  rw [cornerLon, orLon_eq, toNat_codeSymbol hlt hslot]

end corner

theorem addHalf_ofNat (n half : Nat) : addHalf (BitVec.ofNat 56 n) half = BitVec.ofNat 56 (n + half) :=
  (BitVec.ofNat_add n half).symm

theorem latDegrees_ofNat {q : Nat} (h : q < 2 ^ 56) : LatDegrees q (denormLat (BitVec.ofNat 56 q)) := by
  have hdeg := latDegrees_denormLat (BitVec.ofNat 56 q)
  rwa [BitVec.toNat_ofNat, Nat.mod_eq_of_lt h] at hdeg

theorem lonDegrees_ofNat {r : Nat} (h : r < 2 ^ 56) : LonDegrees r (denormLon (BitVec.ofNat 56 r)) := by
  have hdeg := lonDegrees_denormLon (BitVec.ofNat 56 r)
  rwa [BitVec.toNat_ofNat, Nat.mod_eq_of_lt h] at hdeg

/-- Settles O51: the fields do not overlap, so the model's ORs are the spec's sums, and the center lies in the cell. -/
theorem decodeWritesTheEstimate : Obligations.DecodeWritesTheEstimate := by
  refine ⟨soleWord_of_commandNamed rfl (by decide) rfl fun _ => rfl, fun s hl => ?_, fun s j hl hj hbad hgood => ?_,
    fun s l f hlen hl hf => ?_⟩
  · rw [exec_decode_err (by omega), raiseErr_codeTooLong]
  · rw [exec_decode_invalid hl (firstInvalid_eq_some hj hbad hgood), raiseErr_invalidSymbol]
  · subst hlen
    have hvalid : firstInvalid s.code s.codeLen.toNat = none :=
      firstInvalid_eq_none_iff.2 fun j hj => (hf j hj).2 ▸ inAlphabet_charOf (hf j hj).1
    have hq := latLayout.sum_add_half_lt hl ((latbits_le hl).trans (by norm_num)) fun j _ => latPart_lt j (f j)
    have hr := lonLayout.sum_add_half_lt hl ((lonbits_le hl).trans (by norm_num)) fun j _ => lonPart_lt j (f j)
    obtain ⟨hfh, hvh⟩ := hdegLat_exact hl
    obtain ⟨hfg, hvg⟩ := hdegLon_exact hl
    refine ⟨_, _, _, _, _, _, rfl, rfl, hq, hr, latDegrees_ofNat hq, lonDegrees_ofNat hr, hfh, hfg, hvh, hvg, ?_⟩
    rw [exec_decode_ok hl hvalid, cornerLat_eq hl hf, cornerLon_eq hl hf, hqLat_eq, hqLon_eq, addHalf_ofNat, addHalf_ofNat,
      ← mpdLat_eq_mpdLatOf, ← mpdLon_eq_mpdLonOf]
    exact congrArg Host.Outcome.next (complete_eq_done rfl)

/-! ## DECODE as its sequence of units (R185) -/

/-- The copy, UNMAP and DILV j OR the fields of CODE[j] in. -/
theorem decodeUnits_succ {j : Nat} (h : j < 18) {s t u : State} (hu : decodeUnits j t = done s u)
    (hin : inAlphabet (slot u.code j)) : decodeUnits (j + 1) t = done s { u with
      char := slot u.code j
      sym := codeSymbol u.code j
      qlat := orLat j (codeSymbol u.code j) u.qlat
      qlon := orLon j (codeSymbol u.code j) u.qlon } := by
  have hunmap : cmd .unmap (done s { u with char := slot u.code j }) =
      done s { u with char := slot u.code j, sym := codeSymbol u.code j } :=
    cmd_done (exec_unmap_ok (indexOfChar_slot hin))
  have hdilv : ∀ v, cmd (.dilv j) (done s v) =
      done s { v with qlat := orLat j v.sym v.qlat, qlon := orLon j v.sym v.qlon } :=
    fun v => cmd_done (exec_dilv_ok h _)
  rw [decodeUnits, hu, wr_char_hostRead_slot h]
  exact (congrArg _ hunmap).trans (hdilv _)

/-- From cleared accumulators the units of the positions below n leave the corner, and SYM and CHAR as the last of
them did. -/
theorem decodeUnits_eq (s : State) {n : Nat} (h : n ≤ 18) (hin : ∀ j < n, inAlphabet (slot s.code j)) :
    ∃ y c, decodeUnits n (done s { s with qlat := 0, qlon := 0 }) = done s { s with
      sym := y
      char := c
      qlat := cornerLat s.code n
      qlon := cornerLon s.code n } := by
  induction n with
  | zero => exact ⟨s.sym, s.char, rfl⟩
  | succ j ih =>
    obtain ⟨y, c, hj⟩ := ih (by omega) fun i hi => hin i (by omega)
    exact ⟨_, _, decodeUnits_succ h hj (hin j (Nat.lt_succ_self j))⟩

/-- CENTER, DENORM, HALF and METERS leave the estimate at the center of the cell. -/
theorem estimateUnits_done {l : Nat} (h : l ≤ 18) (s u : State) :
    cmd .meters (cmd (.half l) (cmd .denorm (cmd (.center l) (done s u)))) =
      done s (withEstimate (addHalf u.qlat (hqLat l)) (addHalf u.qlon (hqLon l)) l u) := by
  have hcenter : cmd (.center l) (done s u) =
      done s { u with qlat := addHalf u.qlat (hqLat l), qlon := addHalf u.qlon (hqLon l) } := cmd_done (exec_center_ok h _)
  have hdenorm : ∀ v, cmd .denorm (done s v) = done s { v with ctrLat := denormLat v.qlat, ctrLon := denormLon v.qlon } :=
    fun v => cmd_done rfl
  have hhalf : ∀ v, cmd (.half l) (done s v) = done s { v with hlatDeg := hdegLat l, hlonDeg := hdegLon l } :=
    fun v => cmd_done (exec_half_ok h _)
  have hmeters : ∀ v, cmd .meters (done s v) = done s (withMetrics cos64 hypot64 v.ctrLat v.hlatDeg v.hlonDeg v) :=
    fun v => cmd_done rfl
  rw [hcenter, hdenorm, hhalf, hmeters]
  rfl

/-- Settles O52, by induction on the length: each round of units ORs in the fields of the next character. -/
theorem decodeIsTheUnitSequence : Obligations.DecodeIsTheUnitSequence := by
  intro s hl hin
  have hclrq : cmd .clrq s = done s { s with qlat := 0, qlon := 0 } := cmd_of_exec (congrArg _ (complete_eq_done rfl))
  obtain ⟨y, c, hunits⟩ := decodeUnits_eq s hl hin
  rw [exec_decode_ok hl (firstInvalid_eq_none_iff.2 hin), hclrq, hunits, estimateUnits_done hl]
  exact congrArg Host.Outcome.next (complete_eq_done rfl)

end Sys2Proof.Machine
end

section
/-! PROOFS. 60_exceptions: an error changes STATUS alone, and which command words raise which error. -/

namespace Sys2Proof.Machine

open Sys2Proof.Spec

/-! ## Errors are precise (R204) -/

/-- Error entry writes ERR, EPOS and STICKY as the spec's `failed` does. -/
theorem raiseErr_eq_failed (e : ErrCode) (p : BitVec 8) (s : State) : raiseErr e p s = failed s (errValue e) p := by
  have hword : statusRaised e p = p ++ 0x1#4 ++ errValue e := by cases e <;> revert p <;> decide
  rw [raiseErr, hword, failed]

/-- A command raises one error from the state before it, or ends with ERR = OK. -/
theorem exec_ends {i : Instr} {s t : State} (h : exec i s = .next t) :
    (∃ e p, t = raiseErr e p s) ∨ errOf t.status = 0 := by
  rcases exec_cases i s with ⟨e, p, hr⟩ | ⟨u, hu, -⟩
  · rw [hr.outcome] at h; cases h
    exact .inl ⟨e, p, rfl⟩
  · rw [hu] at h; cases h
    exact .inr (errOf_statusCompleted _)

/-- The state an error leaves is read off its own ERR and EPOS. -/
theorem raiseErr_eq_failed_fields {e : ErrCode} {p : BitVec 8} {s t : State} (h : t = raiseErr e p s) :
    t = failed s (errOf t.status) (eposOf t.status) := by
  rw [h, raiseErr_status, errOf_statusRaised, eposOf_statusRaised, raiseErr_eq_failed]

/-- Settles O20: whatever does not complete is one `raiseErr` from the state before the command. -/
theorem errorsArePrecise : Obligations.ErrorsArePrecise := by
  constructor
  · intro i s t h he
    obtain ⟨e, p, ht⟩ := (exec_ends h).resolve_right he
    exact raiseErr_eq_failed_fields ht
  · intro s t h he
    rcases issue_ends h with ⟨e, p, ht⟩ | ⟨u, rfl, -⟩
    · exact raiseErr_eq_failed_fields ht
    · exact absurd (errOf_statusCompleted _) he

/-! ## The words that raise IllegalCommand (R202) -/

/-- The opcode map names a command at every opcode below 0xD, at operand 0 where the command takes none. -/
theorem exists_commandNamed {op n : Nat} (hop : op < 13) (hn : op ∈ [0x0, 0x1, 0x2, 0x3, 0x6, 0x7, 0xA, 0xC] → n = 0) :
    ∃ i, commandNamed op n = some i := by
  by_cases hlist : op ∈ [0x0, 0x1, 0x2, 0x3, 0x6, 0x7, 0xA, 0xC]
  · rw [hn hlist]
    interval_cases op <;> exact ⟨_, rfl⟩
  · have hrest : op = 0x4 ∨ op = 0x5 ∨ op = 0x8 ∨ op = 0x9 ∨ op = 0xB := by
      simp only [List.mem_cons, List.not_mem_nil, or_false] at hlist
      omega
    rcases hrest with rfl | rfl | rfl | rfl | rfl <;> exact ⟨_, rfl⟩

/-- A word that does not decode is one of those that spell no command. -/
theorem spellsNoCommand_of_decode_error {w : CmdWord} {r : DecodeReject} (h : decode w = .error r) : spellsNoCommand w := by
  by_contra hw
  obtain ⟨hrsv, hop, hn⟩ : w.toNat / 16 % 16 = 0 ∧ w.toNat % 16 < 13 ∧
      (w.toNat % 16 ∈ [0x0, 0x1, 0x2, 0x3, 0x6, 0x7, 0xA, 0xC] → w.toNat / 256 = 0) := by
    simpa only [spellsNoCommand, not_or, not_and, not_not, ne_eq, not_le] using hw
  obtain ⟨i, hi⟩ := exists_commandNamed hop hn
  rw [decode_eq_ok_iff.2 ⟨hrsv, hi⟩] at h
  cases h

/-! ## The error of each command (R200, R205) -/

/-- The error a command raises in a state, none where it completes: the length before the coordinate or the characters. -/
def errorOf (s : State) : Instr → Option ErrCode
  | .nop | .denorm | .clrq | .map | .meters => none
  | .norm => if badCoordinate s then some .invalidCoordinate else none
  | .ilv j | .dilv j => if j < 18 then none else some .codeTooLong
  | .unmap => if indexOfChar s.char = none then some .invalidSymbol else none
  | .half l | .center l => if l ≤ 18 then none else some .codeTooLong
  | .encode l =>
    if l ≤ 18 then (if badCoordinate s then some .invalidCoordinate else none) else some .codeTooLong
  | .decode =>
    if s.codeLen.toNat ≤ 18 then
      (if firstInvalid s.code s.codeLen.toNat = none then none else some .invalidSymbol)
    else some .codeTooLong

/-- STATUS.ERR after an error, and 0 (OK) after none (R24). -/
def errCode (o : Option ErrCode) : BitVec 4 := o.elim 0 errValue

theorem errValue_injective : Function.Injective errValue := by
  intro a b h
  revert h
  cases a <;> cases b <;> decide

theorem errCode_eq_errValue_iff {o : Option ErrCode} {e : ErrCode} : errCode o = errValue e ↔ o = some e := by
  cases o with
  | none => exact ⟨fun h => absurd h.symm (errValue_ne_zero e), nofun⟩
  | some a => exact errValue_injective.eq_iff.trans Option.some_inj.symm

section outcome

variable {r : Host.Outcome State Fault Refusal} {t u v : State} {e : ErrCode} {p : BitVec 8}

theorem errOf_of_completed (h : r = .next t) (hu : r = .next (complete u)) : errOf t.status = errCode none := by
  rw [hu] at h; cases h
  exact errOf_statusCompleted _

theorem errOf_of_raised (h : r = .next t) (hv : r = .next (raiseErr e p v)) : errOf t.status = errCode (some e) := by
  rw [hv] at h; cases h
  exact errOf_statusRaised ..

/-- A command whose one check is `c` raises its error exactly where the check fails. -/
theorem errOf_of_check {c : Prop} [Decidable c] (h : r = .next t) (hok : c → r = .next (complete u))
    (herr : ¬ c → r = .next (raiseErr e p v)) : errOf t.status = errCode (if c then none else some e) := by
  split_ifs with hc
  · exact errOf_of_completed h (hok hc)
  · exact errOf_of_raised h (herr hc)

end outcome

/-- A command ends with ERR as `errorOf` says. -/
theorem errOf_exec {i : Instr} {s t : State} (h : exec i s = .next t) : errOf t.status = errCode (errorOf s i) := by
  cases i with
  | nop | denorm | clrq | map | meters => exact errOf_of_completed h rfl
  | norm =>
    rw [errorOf]; split_ifs with hb
    · exact errOf_of_raised h (exec_norm_err hb)
    · exact errOf_of_completed h (exec_norm_ok hb)
  | ilv j => exact errOf_of_check h (exec_ilv_ok · s) (exec_ilv_err · s)
  | dilv j => exact errOf_of_check h (exec_dilv_ok · s) (exec_dilv_err · s)
  | half l => exact errOf_of_check h (exec_half_ok · s) (exec_half_err · s)
  | center l => exact errOf_of_check h (exec_center_ok · s) (exec_center_err · s)
  | unmap =>
    rw [errorOf]; split_ifs with hc
    · exact errOf_of_raised h (exec_unmap_err hc)
    · obtain ⟨y, hy⟩ := Option.ne_none_iff_exists'.1 hc
      exact errOf_of_completed h (exec_unmap_ok hy)
  | encode l =>
    rw [errorOf]; split_ifs with hl hb
    · exact errOf_of_raised h (exec_encode_nan hl hb)
    · exact errOf_of_completed h (exec_encode_ok hl hb)
    · exact errOf_of_raised h (exec_encode_err hl s)
  | decode =>
    rw [errorOf]; split_ifs with hl hf
    · exact errOf_of_completed h (exec_decode_ok hl hf)
    · obtain ⟨j, hj⟩ := Option.ne_none_iff_exists'.1 hf
      exact errOf_of_raised h (exec_decode_invalid hl hj)
    · exact errOf_of_raised h (exec_decode_err hl)

/-- InvalidSymbol: UNMAP by its byte, DECODE by its characters once its length is good. -/
theorem errorOf_eq_invalidSymbol_iff {s : State} {i : Instr} : errorOf s i = some .invalidSymbol ↔
    (i = .unmap ∧ ¬ inAlphabet s.char) ∨
      (i = .decode ∧ s.codeLen.toNat ≤ 18 ∧ ∃ j < s.codeLen.toNat, ¬ inAlphabet (slot s.code j)) := by
  cases i with
  | unmap => simp [errorOf, indexOfChar_eq_none_iff]
  | decode => by_cases hl : s.codeLen.toNat ≤ 18 <;> simp [errorOf, hl, firstInvalid_eq_none_iff]
  | encode l => by_cases hl : l ≤ 18 <;> simp [errorOf, hl]
  | _ => simp [errorOf]

/-- CodeTooLong: a length above 18 or a position above 17, whatever else is wrong. -/
theorem errorOf_eq_codeTooLong_iff {s : State} {i : Instr} : errorOf s i = some .codeTooLong ↔
    (i = .decode ∧ 18 < s.codeLen.toNat) ∨ (∃ n, 18 < n ∧ (i = .encode n ∨ i = .half n ∨ i = .center n)) ∨
      (∃ n, 17 < n ∧ (i = .ilv n ∨ i = .dilv n)) := by
  cases i with
  | ilv j | dilv j => simp [errorOf, Nat.succ_le_iff]
  | _ => simp [errorOf]

/-- InvalidCoordinate: NORM, and ENCODE once its length is good. -/
theorem errorOf_eq_invalidCoordinate_iff {s : State} {i : Instr} : errorOf s i = some .invalidCoordinate ↔
    (isNaN s.latIn = true ∨ isNaN s.lonIn = true) ∧ (i = .norm ∨ ∃ n ≤ 18, i = .encode n) := by
  rw [← badCoordinate_iff]
  cases i with
  | encode l => by_cases hl : l ≤ 18 <;> simp [errorOf, hl, -badCoordinate_iff]
  | decode => by_cases hl : s.codeLen.toNat ≤ 18 <;> simp [errorOf, hl, -badCoordinate_iff]
  | _ => simp [errorOf, -badCoordinate_iff]

theorem errorOf_ne_illegalCommand (s : State) (i : Instr) : errorOf s i ≠ some .illegalCommand := by
  cases i with
  | encode l => by_cases hl : l ≤ 18 <;> simp [errorOf, hl]
  | decode => by_cases hl : s.codeLen.toNat ≤ 18 <;> simp [errorOf, hl]
  | _ => simp [errorOf]

/-- Settles O22: a word that decodes ends with the error `errorOf` gives its command, and any other with IllegalCommand. -/
theorem errorCauses : Obligations.ErrorCauses := by
  intro s t h
  rcases issue_cases s with ⟨i, hd, hi⟩ | ⟨r, hd, hi⟩ <;> rw [hi] at h
  · have hcode : ∀ e, errOf t.status = errValue e ↔ errorOf s i = some e := fun e => by
      rw [errOf_exec h, errCode_eq_errValue_iff]
    have hnot4 : errOf t.status ≠ errValue .illegalCommand := mt (hcode _).1 (errorOf_ne_illegalCommand s i)
    obtain ⟨hzero, hpos⟩ := eposIsTheFirstInvalidPosition.1 i s t h
    simp only [hd, Except.ok.injEq]
    refine ⟨(hcode .invalidSymbol).trans errorOf_eq_invalidSymbol_iff,
      (hcode .codeTooLong).trans errorOf_eq_codeTooLong_iff,
      (hcode .invalidCoordinate).trans errorOf_eq_invalidCoordinate_iff,
      iff_of_false hnot4 (not_spellsNoCommand_of_decode_ok hd), fun h1 hdec => ?_, fun hor => hzero ?_⟩
    · obtain ⟨-, -, hbad, hgood⟩ := hpos hdec h1
      exact ⟨hbad, hgood⟩
    · rintro ⟨hdec, h1⟩
      exact hor.elim (· h1) (· (congrArg _ hdec))
  · cases h
    simp [hd, spellsNoCommand_of_decode_error hd, errValue]

end Sys2Proof.Machine
end

section
/-! PROOFS. 30_encoding: the words that decode and the well-formed commands are one to one. -/

namespace Sys2Proof.Machine

open Sys2Proof.Spec Sys2Proof.Laws.WordFields

/-! ## A command by its two fields (R71, R73) -/

theorem encode_eq_cmdWord (i : Instr) : Sys2Proof.encode i = cmdWord (operand i) (opcode i) := by
  cases i <;> rfl

/-- A command is well-formed exactly if its operand fits N (R71, R77). -/
theorem wellFormed_iff {i : Instr} : i.wellFormed = true ↔ operand i ≤ 255 := by
  cases i with
  | ilv n | dilv n | half n | center n | encode n => exact decide_eq_true_iff
  | _ => exact iff_of_true rfl (Nat.zero_le _)

/-- The row of an opcode names a command exactly at the command's own opcode and operand. -/
theorem commandNamed_eq_some_iff {op n : Nat} {i : Instr} :
    commandNamed op n = some i ↔ op = (opcode i).toNat ∧ n = operand i := by
  constructor
  · intro h
    unfold commandNamed at h
    split at h <;> cases h <;> exact ⟨rfl, rfl⟩
  · rintro ⟨rfl, rfl⟩
    cases i <;> rfl

theorem toNat_encode {i : Instr} (h : operand i ≤ 255) :
    (Sys2Proof.encode i).toNat = operand i * 256 + (opcode i).toNat := by
  rw [encode_eq_cmdWord, toNat_cmdWord h]

/-- Settles O1: the word's arithmetic gives the opcode and the operand back, with RSV = 0 between them, and they name the
command. -/
theorem decodeOfEncodedCommand : Obligations.DecodeOfEncodedCommand := by
  intro i hwf
  have hword := toNat_encode (wellFormed_iff.1 hwf)
  have hop := (opcode i).isLt
  exact decode_eq_ok_iff.2 ⟨by omega, commandNamed_eq_some_iff.2 ⟨by omega, by omega⟩⟩

/-- Settles O2: a word that decodes is put together from RSV = 0 and the opcode and operand of its command, which fit. -/
theorem encodeOfDecodedWord : Obligations.EncodeOfDecodedWord := by
  intro w i h
  obtain ⟨hrsv, hnamed⟩ := decode_eq_ok_iff.1 h
  obtain ⟨hop, hn⟩ := commandNamed_eq_some_iff.1 hnamed
  have hw := w.isLt
  have hfits : operand i ≤ 255 := by omega
  refine ⟨BitVec.eq_of_toNat_eq ?_, wellFormed_iff.2 hfits⟩
  rw [toNat_encode hfits]
  omega

/-- Settles O4, word by word. -/
theorem specWordsDecode : Obligations.SpecWordsDecode := by
  unfold Obligations.SpecWordsDecode
  decide

/-- Settles O6: the write to CMD issues the word, which no command decodes from. -/
theorem stepOfIllegalWord : Obligations.StepOfIllegalWord := by
  intro s d rest hp hw
  rw [step_write hp, hostWrite_cmd]
  exact issue_of_not_decode_ok fun i hi => not_spellsNoCommand_of_decode_ok hi hw

end Sys2Proof.Machine
end

section
/-! PROOFS. 10_state, 20_memory: which registers a command writes, whatever the values, and that nothing pending reaches it. -/

namespace Sys2Proof.Machine

open Sys2Proof.Spec

/-! ## The registers each command writes -/

/-- The state `s` with the registers a command writes when it completes taken from `v`. The values stay variables here: what
is said of the other registers holds for all of them. -/
def place (v s : State) : Instr → State
  | .nop => s
  | .norm | .clrq | .dilv _ | .center _ => { s with qlat := v.qlat, qlon := v.qlon }
  | .denorm => { s with ctrLat := v.ctrLat, ctrLon := v.ctrLon }
  | .ilv _ | .unmap => { s with sym := v.sym }
  | .map => { s with char := v.char }
  | .half _ => { s with hlatDeg := v.hlatDeg, hlonDeg := v.hlonDeg }
  | .meters =>
    { s with mpdLat := v.mpdLat, mpdLon := v.mpdLon, hlatM := v.hlatM, hlonM := v.hlonM, errM := v.errM }
  | .encode _ => { s with code := v.code, codeLen := v.codeLen, qlat := v.qlat, qlon := v.qlon }
  | .decode =>
    { s with
      qlat := v.qlat, qlon := v.qlon, ctrLat := v.ctrLat, ctrLon := v.ctrLon, hlatDeg := v.hlatDeg, hlonDeg := v.hlonDeg
      mpdLat := v.mpdLat, mpdLon := v.mpdLon, hlatM := v.hlatM, hlonM := v.hlonM, errM := v.errM }

/-- The state with another list of pending accesses. -/
def withPort (s : State) (port : List PortEvent) : State := { s with port := port }

/-- Whatever is pending, a command raises one error, or completes with one set of values. -/
theorem exec_withPort_cases (i : Instr) (s : State) :
    (∃ e p, ∀ port, exec i (withPort s port) = .next (raiseErr e p (withPort s port))) ∨
    (∃ v, ∀ port, exec i (withPort s port) = .next (complete (place v (withPort s port) i))) := by
  cases i with
  | nop => exact .inr ⟨s, fun _ => rfl⟩
  | denorm => exact .inr ⟨{ s with ctrLat := denormLat s.qlat, ctrLon := denormLon s.qlon }, fun _ => rfl⟩
  | clrq => exact .inr ⟨{ s with qlat := 0, qlon := 0 }, fun _ => rfl⟩
  | map => exact .inr ⟨{ s with char := rom s.sym }, fun _ => rfl⟩
  | meters => exact .inr ⟨withMetrics cos64 hypot64 s.ctrLat s.hlatDeg s.hlonDeg s, fun _ => rfl⟩
  | ilv j =>
    by_cases h : j < 18
    · exact .inr ⟨{ s with sym := symbolAt j s.qlat s.qlon }, fun _ => exec_ilv_ok h _⟩
    · exact .inl ⟨_, _, fun _ => exec_ilv_err h _⟩
  | dilv j =>
    by_cases h : j < 18
    · exact .inr ⟨{ s with qlat := orLat j s.sym s.qlat, qlon := orLon j s.sym s.qlon }, fun _ => exec_dilv_ok h _⟩
    · exact .inl ⟨_, _, fun _ => exec_dilv_err h _⟩
  | half l =>
    by_cases h : l ≤ 18
    · exact .inr ⟨{ s with hlatDeg := hdegLat l, hlonDeg := hdegLon l }, fun _ => exec_half_ok h _⟩
    · exact .inl ⟨_, _, fun _ => exec_half_err h _⟩
  | center l =>
    by_cases h : l ≤ 18
    · exact .inr ⟨{ s with qlat := addHalf s.qlat (hqLat l), qlon := addHalf s.qlon (hqLon l) },
        fun _ => exec_center_ok h _⟩
    · exact .inl ⟨_, _, fun _ => exec_center_err h _⟩
  | norm =>
    by_cases h : badCoordinate s = true
    · exact .inl ⟨_, _, fun port => exec_norm_err (s := withPort s port) h⟩
    · exact .inr ⟨{ s with qlat := normLat s.latIn, qlon := normLon s.lonIn },
        fun port => exec_norm_ok (s := withPort s port) h⟩
  | unmap =>
    cases h : indexOfChar s.char with
    | none => exact .inl ⟨_, _, fun port => exec_unmap_err (s := withPort s port) h⟩
    | some y => exact .inr ⟨{ s with sym := y }, fun port => exec_unmap_ok (s := withPort s port) h⟩
  | encode l =>
    by_cases h : l ≤ 18
    · by_cases hb : badCoordinate s = true
      · exact .inl ⟨_, _, fun port => exec_encode_nan (s := withPort s port) h hb⟩
      · exact .inr ⟨withCode l (normLat s.latIn) (normLon s.lonIn) s,
          fun port => exec_encode_ok (s := withPort s port) h hb⟩
    · exact .inl ⟨_, _, fun _ => exec_encode_err h _⟩
  | decode =>
    by_cases h : s.codeLen.toNat ≤ 18
    · cases hf : firstInvalid s.code s.codeLen.toNat with
      | some j => exact .inl ⟨_, _, fun port => exec_decode_invalid (s := withPort s port) h hf⟩
      | none =>
        exact .inr ⟨withEstimate (addHalf (cornerLat s.code s.codeLen.toNat) (hqLat s.codeLen.toNat))
            (addHalf (cornerLon s.code s.codeLen.toNat) (hqLon s.codeLen.toNat)) s.codeLen.toNat s,
          fun port => exec_decode_ok (s := withPort s port) h hf⟩
    · exact .inl ⟨_, _, fun port => exec_decode_err (s := withPort s port) h⟩

/-- A command that answers raised an error, or wrote the registers `place` lists for it. -/
theorem exec_placed {i : Instr} {s t : State} (h : exec i s = .next t) :
    (∃ e p, t = raiseErr e p s) ∨ (∃ v, t = complete (place v s i)) := by
  rcases exec_withPort_cases i s with ⟨e, p, hr⟩ | ⟨v, hc⟩
  · exact .inl ⟨e, p, Host.Outcome.next.inj (h.symm.trans (hr s.port))⟩
  · exact .inr ⟨v, Host.Outcome.next.inj (h.symm.trans (hc s.port))⟩

/-- Settles O24: an error writes STATUS alone, and a command that completes the registers `place` lists for it. -/
theorem onlyTheNamedCommandsWrite : Obligations.OnlyTheNamedCommandsWrite := by
  intro i s t h
  rcases exec_placed h with ⟨e, p, rfl⟩ | ⟨v, rfl⟩
  · simp
  · cases i <;> simp [place]

/-! ## What is pending reaches no command (20_memory R57) -/

theorem complete_place_withPort (v s : State) (i : Instr) (port : List PortEvent) :
    complete (place v (withPort s port) i) = withPort (complete (place v s i)) port := by
  cases i <;> rfl

/-- A command does the same whatever is pending. -/
theorem exec_withPort {i : Instr} {s t : State} (h : exec i s = .next t) (port : List PortEvent) :
    exec i (withPort s port) = .next (withPort t port) := by
  rcases exec_withPort_cases i s with ⟨e, p, hr⟩ | ⟨v, hc⟩
  · rw [hr port, Host.Outcome.next.inj (h.symm.trans (hr s.port))]; rfl
  · rw [hc port, complete_place_withPort, Host.Outcome.next.inj (h.symm.trans (hc s.port))]; rfl

theorem issue_withPort {s t : State} (h : issue s = .next t) (port : List PortEvent) :
    issue (withPort s port) = .next (withPort t port) := by
  rcases issue_cases s with ⟨i, hd, hi⟩ | ⟨r, hd, hi⟩ <;> rw [hi] at h
  · exact (issue_of_decode_ok (s := withPort s port) hd).trans (exec_withPort h port)
  · cases h
    exact issue_of_not_decode_ok (s := withPort s port) fun i hok => nomatch hd.symm.trans hok

theorem writeReg_withPort (d : PortWord) (s : State) (r : Reg) (port : List PortEvent) :
    writeReg d (withPort s port) r = withPort (writeReg d s r) port := by
  cases r <;> rfl

theorem hostWrite_withPort {s t : State} {idx : RegIndex} {d : PortWord} (h : hostWrite s idx d = .next t)
    (port : List PortEvent) : hostWrite (withPort s port) idx d = .next (withPort t port) := by
  cases hr : regAt idx with
  | none =>
    simp only [hostWrite, hr] at h ⊢
    cases h; rfl
  | some r =>
    by_cases hcmd : r = .cmd
    · simp only [hostWrite, hr, if_pos hcmd] at h ⊢
      exact issue_withPort h port
    · simp only [hostWrite, hr, if_neg hcmd] at h ⊢
      cases h; rw [writeReg_withPort]

/-- An access does the same whatever is pending after it. -/
theorem accept_withPort {e : PortEvent} {s t : State} (h : accept e s = .next t) (port : List PortEvent) :
    accept e (withPort s port) = .next (withPort t port) := by
  cases e with
  | read idx => cases h; rfl
  | reset => cases h; rfl
  | write idx d => exact hostWrite_withPort h port

/-- A step of a block with an access pending does the same with more accesses pending after it. -/
theorem step_append {s t : State} (h : step s = .next t) (hp : s.port ≠ []) (later : List PortEvent) :
    step (withPort s (s.port ++ later)) = .next (withPort t (t.port ++ later)) := by
  obtain ⟨e, rest, hport⟩ := List.exists_cons_of_ne_nil hp
  obtain ⟨t', ht', htail⟩ := step_total s
  obtain rfl : t' = t := Host.Outcome.next.inj (ht'.symm.trans h)
  rw [step_cons hport] at h
  have hrest : t'.port = rest := by rw [htail, hport, List.tail_cons]
  have hlater := accept_withPort h (rest ++ later)
  rw [hrest]
  exact (step_cons (congrArg (· ++ later) hport)).trans hlater

/-- Settles O15, by induction on the steps: each takes an access that was pending before. -/
theorem laterAccessesHaveNoEffect : Obligations.LaterAccessesHaveNoEffect := by
  intro n
  induction n with
  | zero =>
    intro s later t _ h
    cases h
    rfl
  | succ n ih =>
    intro s later t hn h
    obtain ⟨u, hu, htail⟩ := step_total s
    have hp : s.port ≠ [] := List.ne_nil_of_length_pos (by omega)
    rw [run_succ hu] at h
    refine (run_succ (step_append hu hp later)).trans (ih u later t ?_ h)
    rw [htail, List.length_tail]
    omega

end Sys2Proof.Machine
end

section
/-! PROOFS. 10_state, 60_exceptions: what a step does to STATUS, its invariant, and STICKY over a run. -/

namespace Sys2Proof.Machine

open Sys2Proof.Spec

/-! ## STATUS after a step (R23 to R26) -/

/-- An access leaves STATUS, resets it, or issues a command from a state with the same STATUS. -/
theorem accept_status {e : PortEvent} {s t : State} (h : accept e s = .next t) :
    t.status = s.status ∨ t.status = 0 ∨ ∃ u, u.status = s.status ∧ issue u = .next t := by
  cases e with
  | read idx => cases h; exact .inl rfl
  | reset => cases h; exact .inr (.inl rfl)
  | write idx d =>
    rw [accept] at h
    rcases hostWrite_cases s idx d with ⟨-, hw⟩ | ⟨r, -, -, hw⟩ | ⟨-, hw⟩ <;> rw [hw] at h
    · exact .inr (.inr ⟨{ s with cmd := d.setWidth 16 }, rfl, h⟩)
    · cases h; exact .inl (writeReg_untouched d s r).1
    · cases h; exact .inl rfl

theorem step_status {s t : State} (h : step s = .next t) :
    t.status = s.status ∨ t.status = 0 ∨ ∃ u, u.status = s.status ∧ issue u = .next t := by
  cases hp : s.port with
  | nil => rw [step_nil hp] at h; cases h; exact .inl rfl
  | cons e rest =>
    rw [step_cons hp] at h
    exact accept_status (s := { s with port := rest }) h

/-- Settles O18: STATUS is 0 after reset. -/
theorem resetStatusIsGood : Obligations.ResetStatusIsGood := by
  unfold Obligations.ResetStatusIsGood
  constructor <;> decide

/-- Settles O17: STATUS stays, becomes its reset value, or is what an issued command leaves, and each is good. -/
theorem stepKeepsStatusGood : Obligations.StepKeepsStatusGood := by
  intro s t hs h
  rcases step_status h with ht | ht | ⟨u, -, hu⟩
  · exact hs.congr ht
  · exact StatusInv.congr ht resetStatusIsGood
  · exact issue_statusInv hu

/-! ## STICKY over a run (R25; 70_reset R238) -/

/-- A step that turns STICKY on took a command that ended with an error. -/
theorem errOf_ne_zero_of_sticky_set {s t : State} (h : step s = .next t) (hs : stickyOf s.status = false)
    (ht : stickyOf t.status = true) : errOf t.status ≠ 0 := by
  intro he
  rcases step_status h with hst | hst | ⟨u, hus, hu⟩
  · rw [hst, hs] at ht; cases ht
  · rw [hst] at ht; revert ht; decide
  · rw [issue_keeps_sticky hu he, hus, hs] at ht; cases ht

/-- Without a pending reset the next step takes none, and leaves none pending. -/
theorem noResetPending_step {s t : State} (hn : s.noResetPending) (h : step s = .next t) :
    s.port.head? ≠ some .reset ∧ t.noResetPending := by
  obtain ⟨t', ht', htail⟩ := step_total s
  obtain rfl : t' = t := Host.Outcome.next.inj (ht'.symm.trans h)
  refine ⟨fun hhead => hn (List.mem_of_mem_head? hhead), fun hmem => hn ?_⟩
  rw [htail] at hmem
  exact List.mem_of_mem_tail hmem

/-- Without a pending reset STICKY stays set to the end of a run. -/
theorem run_sticky {n : Nat} {s t : State} (hn : s.noResetPending) (h : Sys2Proof.core.run n s = .next t)
    (hs : stickyOf s.status = true) : stickyOf t.status = true := by
  induction n generalizing s with
  | zero => cases h; exact hs
  | succ n ih =>
    obtain ⟨u, hu, -⟩ := step_total s
    obtain ⟨hhead, hnu⟩ := noResetPending_step hn hu
    rw [run_succ hu] at h
    exact ih hnu h (step_sticky hu hhead hs)

/-- A run that ends with STICKY = 0 began without an error, which would have set STICKY for good. -/
theorem errOf_eq_zero_of_run {n : Nat} {s t : State} (hs : StatusInv s) (hn : s.noResetPending)
    (h : Sys2Proof.core.run n s = .next t) (ht : stickyOf t.status = false) : errOf s.status = 0 := by
  by_contra he
  rw [run_sticky hn h (hs.err_sticky he)] at ht
  cases ht

theorem errorFree_of_sticky_clear {n : Nat} {s t : State} (hs : StatusInv s) (hn : s.noResetPending)
    (h : Sys2Proof.core.run n s = .next t) (ht : stickyOf t.status = false) : ErrorFree n s := by
  intro k hk u hu
  induction k generalizing n s with
  | zero => cases hu; exact errOf_eq_zero_of_run hs hn h ht
  | succ k ih =>
    obtain ⟨n, rfl⟩ : ∃ m, n = m + 1 := ⟨n - 1, by omega⟩
    obtain ⟨v, hv, -⟩ := step_total s
    rw [run_succ hv] at h hu
    exact ih (stepKeepsStatusGood s v hs hv) (noResetPending_step hn hv).2 h (by omega) hu

/-- A run that turns STICKY on had an error after one of its steps. -/
theorem exists_error_of_sticky_set {n : Nat} {s t : State} (h : Sys2Proof.core.run n s = .next t)
    (hs : stickyOf s.status = false) (ht : stickyOf t.status = true) :
    ∃ k ≤ n, ∃ u : State, Sys2Proof.core.run k s = .next u ∧ errOf u.status ≠ 0 := by
  induction n generalizing s with
  | zero => cases h; rw [hs] at ht; cases ht
  | succ n ih =>
    obtain ⟨v, hv, -⟩ := step_total s
    rw [run_succ hv] at h
    cases hsticky : stickyOf v.status with
    | true => exact ⟨1, by omega, v, run_succ hv, errOf_ne_zero_of_sticky_set hv hs hsticky⟩
    | false =>
      obtain ⟨k, hk, u, hu, he⟩ := ih h hsticky
      exact ⟨k + 1, by omega, u, (run_succ hv).trans hu, he⟩

/-- Settles O23: STICKY never falls during the run, and rises only at a step that ends with an error. -/
theorem stickyTellsWhetherTheRunHadAnError : Obligations.StickyTellsWhetherTheRunHadAnError :=
  fun _ _ _ hs hn h => ⟨errorFree_of_sticky_clear hs hn h, exists_error_of_sticky_set h⟩

end Sys2Proof.Machine
end

section
/-! PROOFS. 20_memory, 70_reset: the register map, and what the port accepts, one access after another. -/

namespace Sys2Proof.Machine

open Sys2Proof.Spec

/-! ## Indices and registers (10_state R21, 20_memory R51) -/

/-- Settles O10: an index that names a register is the register's own, and one that names none is reserved. -/
theorem registerMapIsOneToOne : Obligations.RegisterMapIsOneToOne :=
  ⟨fun _ _ => regAt_eq_some_iff.trans eq_comm, regAt_eq_none_iff⟩

/-! ## One access (R51, R52; 70_reset R230, R231, R236) -/

theorem hostRead_eq (s : State) (idx : RegIndex) : hostRead s idx = BitVec.ofNat 64 (registerValue s idx.toNat) := by
  rw [← toNat_hostRead, BitVec.ofNat_toNat, BitVec.setWidth_eq]

theorem step_read {s : State} {idx : RegIndex} {rest : List PortEvent} (hp : s.port = .read idx :: rest) :
    step s = .next { s with port := rest, reads := s.reads ++ [hostRead s idx] } :=
  step_cons hp

/-- Settles O8: the value read is that of the index, and nothing but the host's own lists changes. -/
theorem hostReadHasNoSideEffect : Obligations.HostReadHasNoSideEffect := by
  intro s idx rest hp
  rw [step_read hp, hostRead_eq]

/-- Settles O9: a reserved index names no register, so a write has no target and a read gives 0. -/
theorem reservedIndicesAreInert : Obligations.ReservedIndicesAreInert := by
  intro s idx d rest hres
  have hnone := (regAt_eq_none_iff idx).2 hres
  refine ⟨hnone, fun hp => ?_, fun hp => ?_⟩
  · simp only [step_write hp, hostWrite, hnone]
  · simp only [step_read hp, hostRead, hnone]

/-- Settles O11: the step takes the event, and `resetBlock` keeps the host's own lists alone. -/
theorem resetEventRestoresResetValues : Obligations.ResetEventRestoresResetValues :=
  fun _ _ hp => step_cons hp

/-- Settles O16: with no access to take, `step` answers the state itself. -/
theorem idleBlockKeepsItsState : Obligations.IdleBlockKeepsItsState := fun _ => step_nil

/-- Settles O13: every access answers next, and with none pending the step keeps the state. -/
theorem stepAlwaysCompletes : Obligations.StepAlwaysCompletes := step_total

/-! ## As many steps as accesses (70_reset R238) -/

/-- An access returns one value if it is a read, and none else. -/
theorem accept_reads_length {e : PortEvent} {s t : State} (h : accept e s = .next t) :
    t.reads.length = s.reads.length + ([e].filter isRead).length := by
  cases e with
  | read idx => cases h; exact List.length_append
  | reset => cases h; rfl
  | write idx d =>
    rw [accept] at h
    rcases hostWrite_cases s idx d with ⟨-, hw⟩ | ⟨r, -, -, hw⟩ | ⟨-, hw⟩ <;> rw [hw] at h
    · obtain ⟨-, -, -, -, hreads⟩ := issue_untouched h
      rw [hreads]; rfl
    · obtain ⟨-, -, hreads, -⟩ := writeReg_untouched d s r
      cases h; rw [hreads]; rfl
    · cases h; rfl

/-- Settles O14, by induction on the pending accesses: each step takes one, and returns a value if it is a read. -/
theorem runAcceptsEveryAccess : Obligations.RunAcceptsEveryAccess := by
  intro s
  generalize hport : s.port = es
  induction es generalizing s with
  | nil => exact ⟨s, run_zero s, hport, rfl⟩
  | cons e rest ih =>
    obtain ⟨u, hu, hup⟩ := accept_total e { s with port := rest }
    obtain ⟨t, ht, htp, hreads⟩ := ih u hup
    refine ⟨t, (run_succ ((step_cons hport).trans hu)).trans ht, htp, ?_⟩
    have hone := accept_reads_length hu
    rw [← List.singleton_append, List.filter_append, List.length_append, hreads, hone, Nat.add_assoc]

end Sys2Proof.Machine
end

section
/-! PROOFS. 30_encoding R79: the accesses of `WRC`. -/

namespace Sys2Proof.Machine

open Sys2Proof.Spec

/-! ## Runs in parts -/

theorem run_add {m n : Nat} {s t : State} (h : Sys2Proof.core.run m s = .next t) :
    Sys2Proof.core.run (m + n) s = Sys2Proof.core.run n t := by
  induction m generalizing s with
  | zero => cases h; rw [Nat.zero_add]
  | succ m ih =>
    obtain ⟨u, hu, -⟩ := step_total s
    rw [run_succ hu] at h
    rw [Nat.succ_add, run_succ hu, ih h]

/-! ## The accesses of `WRC` (R79) -/

theorem length_wrcSlots (j : Nat) (bytes : List CharByte) : (wrcSlots j bytes).length = bytes.length := by
  induction bytes generalizing j with
  | nil => rfl
  | cons b bs ih => rw [wrcSlots, List.length_cons, List.length_cons, ih]

/-- A step that takes a host write to slot j stores the byte. -/
theorem step_write_slot {s : State} {j : Nat} (hj : j < 18) {b : CharByte} {rest : List PortEvent}
    (hp : s.port = .write (BitVec.ofNat 6 (0x20 + j)) (b.setWidth 64) :: rest) :
    step s = .next { s with port := rest, code := setSlot s.code j b } := by
  rw [step_write hp, hostWrite, regAt_slot hj]
  simp only [reduceCtorEq, if_false, writeReg, setWidth_port_byte]

/-- A step that takes a host write to CODE_LEN stores the length. -/
theorem step_setLength {s : State} {n : Nat} {rest : List PortEvent} (hp : s.port = setLength (BitVec.ofNat 64 n) :: rest) :
    step s = .next { s with port := rest, codeLen := BitVec.ofNat 8 n } := by
  rw [step_write hp, hostWrite, regAt_indexOf]
  simp only [reduceCtorEq, if_false, writeReg, BitVec.setWidth_ofNat_of_le (by decide : 8 ≤ 64)]

/-- After k of the writes of `WRC` the first k slots hold its bytes. -/
theorem run_wrcSlots {bytes : List CharByte} (hlen : bytes.length ≤ 18) {s : State} {rest : List PortEvent}
    (hp : s.port = wrcSlots 0 bytes ++ rest) {k : Nat} (hk : k ≤ bytes.length) :
    Sys2Proof.core.run k s = .next { s with
      port := wrcSlots k (bytes.drop k) ++ rest
      code := fillSlots (bytes.getD · 0) k s.code } := by
  induction k with
  | zero => rw [run_zero, List.drop_zero, ← hp]; rfl
  | succ k ih =>
    rw [run_add (ih (by omega)), List.drop_eq_getElem_cons hk, run_succ (step_write_slot (by omega) rfl), run_zero,
      fillSlots, List.getElem_eq_getD 0]
    rfl

/-- Settles O60: the writes fill the first slots in order, as `fillSlots` does, and the last one writes the length. -/
theorem wrcWritesTheCodeBuffer : Obligations.WrcWritesTheCodeBuffer := by
  intro bytes
  refine ⟨fun hlong => if_neg (by simp only [lengthOk_iff]; omega), fun hlen => ?_⟩
  refine ⟨_, if_pos ((lengthOk_iff _).2 hlen), ?_, fun s hp => ?_⟩
  · rw [List.length_append, length_wrcSlots, List.length_singleton]
  · rw [List.length_append, length_wrcSlots, List.length_singleton, run_add (run_wrcSlots hlen hp le_rfl),
      List.drop_length, run_succ (step_setLength rfl), run_zero]
    refine ⟨_, rfl, fun j hj => ?_, fun j hj => ?_, rfl⟩
    · rw [slot_fillSlots, if_pos ⟨hj, by omega⟩, List.getElem_eq_getD 0]
    · rw [slot_fillSlots, if_neg (by omega)]

end Sys2Proof.Machine
end

section
/-! PROOFS. Binary64 (00_scope R11): each operation on every class of operands. -/

namespace Sys2Proof.Machine

open Sys2Proof.Spec

/-! ## Classes -/

theorem isNaN_fNeg (x : F64) : isNaN (fNeg x) = isNaN x := by
  rw [Bool.eq_iff_iff, isNaN_iff, isNaN_iff, fBody_fNeg]

theorem isInf_fNeg (x : F64) : isInf (fNeg x) = isInf x := by
  rw [Bool.eq_iff_iff, isInf_iff, isInf_iff, fBody_fNeg]

theorem fNeg_fInf (b : Bool) : fNeg (fInf b) = fInf (!b) := by
  cases b <;> decide

theorem fMag_eq_iff {a b : F64} : fMag a = fMag b ↔ |fVal a| = |fVal b| := by
  rw [abs_fVal, abs_fVal, div_left_inj' unitsPerOne_ne_zero, Nat.cast_inj, fMag_eq, fMag_eq]

/-! ## Addition -/

theorem fadd_of_isNaN {a b : F64} (h : isNaN a = true ∨ isNaN b = true) : fadd a b = canonNaN := by
  rw [fadd, if_pos (by simpa using h)]

theorem fadd_of_isFinite {a b : F64} (ha : isFinite a = true) (hb : isFinite b = true) : fadd a b = addFinite a b := by
  simp [fadd, isFinite_excludes ha, isFinite_excludes hb]

theorem fadd_of_isInf_of_isFinite {a b : F64} (ha : isInf a = true) (hb : isFinite b = true) : fadd a b = a := by
  simp [fadd, ha, isInf_excludes ha, isFinite_excludes hb]

theorem fadd_of_isFinite_of_isInf {a b : F64} (ha : isFinite a = true) (hb : isInf b = true) : fadd a b = b := by
  simp [fadd, hb, isInf_excludes hb, isFinite_excludes ha]

theorem fadd_of_isInf {a b : F64} (ha : isInf a = true) (hb : isInf b = true) :
    fadd a b = if fSign a = fSign b then a else canonNaN := by
  by_cases h : fSign a = fSign b <;> simp [fadd, ha, hb, isInf_excludes ha, isInf_excludes hb, h]

/-- An exact zero sum is +0.0, unless both operands are negative zeros. -/
theorem fSign_fadd_of_add_eq_zero {a b : F64} (ha : isFinite a = true) (hb : isFinite b = true)
    (h : fVal a + fVal b = 0) : fSign (fadd a b) = (fSign a && fSign b) := by
  have hmag : fMag a = fMag b := fMag_eq_iff.2 (by rw [eq_neg_of_add_eq_zero_left h, abs_neg])
  rw [fadd_of_isFinite ha hb, addFinite]
  by_cases hs : fSign a = fSign b
  · rw [if_pos hs, fSign_round64, hs, Bool.and_self]
  · rw [if_neg hs, if_pos hmag, fZero, fSign_ofBody]
    rw [Bool.eq_not_of_ne hs, Bool.not_and_self]

theorem fSign_fsub_of_sub_eq_zero {a b : F64} (ha : isFinite a = true) (hb : isFinite b = true)
    (h : fVal a - fVal b = 0) : fSign (fsub a b) = (fSign a && !fSign b) := by
  rw [fsub, fSign_fadd_of_add_eq_zero ha ((isFinite_fNeg b).trans hb), fSign_fNeg]
  rw [fVal_fNeg, ← sub_eq_add_neg, h]

theorem fsub_of_isNaN {a b : F64} (h : isNaN a = true ∨ isNaN b = true) : fsub a b = canonNaN :=
  fadd_of_isNaN (by rwa [isNaN_fNeg])

theorem fsub_of_isFinite_of_isInf {a b : F64} (ha : isFinite a = true) (hb : isInf b = true) :
    fsub a b = fInf (!fSign b) := by
  rw [fsub, fadd_of_isFinite_of_isInf ha ((isInf_fNeg b).trans hb), eq_fInf_of_isInf ((isInf_fNeg b).trans hb), fSign_fNeg]

theorem fsub_of_isInf {a b : F64} (ha : isInf a = true) (hb : isInf b = true) :
    fsub a b = if fSign a = fSign b then canonNaN else a := by
  rw [fsub, fadd_of_isInf ha ((isInf_fNeg b).trans hb), fSign_fNeg]
  cases fSign a <;> cases fSign b <;> rfl

/-- Settles O56, class by class: finite operands round their exact sum once, and a difference is the sum with −b. -/
theorem additionIsIeee : Obligations.AdditionIsIeee := by
  intro a b
  refine ⟨fun ha hb => ?_, fun h => ?_, fun ha hb => ?_, fun ha hb => ?_, fun ha hb => ?_⟩
  · exact ⟨fadd_roundsTo ha hb, fsub_roundsTo ha hb, fSign_fadd_of_add_eq_zero ha hb, fSign_fsub_of_sub_eq_zero ha hb⟩
  · exact ⟨fadd_of_isNaN h, fsub_of_isNaN h⟩
  · exact ⟨fadd_of_isInf_of_isFinite ha hb, fadd_of_isInf_of_isFinite ha ((isFinite_fNeg b).trans hb)⟩
  · exact ⟨fadd_of_isFinite_of_isInf ha hb, fsub_of_isFinite_of_isInf ha hb⟩
  · exact ⟨fadd_of_isInf ha hb, fsub_of_isInf ha hb⟩

/-! ## Multiplication -/

theorem fmul_of_isNaN {a b : F64} (h : isNaN a = true ∨ isNaN b = true) : fmul a b = canonNaN := by
  rw [fmul, if_pos (by simpa using h)]

theorem fSign_fmul {a b : F64} (ha : isFinite a = true) (hb : isFinite b = true) :
    fSign (fmul a b) = (fSign a ^^ fSign b) := by
  simp only [fmul, isFinite_excludes ha, isFinite_excludes hb, Bool.or_self, Bool.false_eq_true, if_false, fSign_round64]

theorem fmul_comm (a b : F64) : fmul a b = fmul b a := by
  simp only [fmul, Bool.or_comm (isNaN a), Bool.or_comm (isInf a), Bool.or_comm (isZero a), Bool.xor_comm (fSign a),
    Nat.mul_comm (fMag a)]

/-- An infinite operand gives an infinity, unless the other is a zero or a NaN. -/
theorem fmul_of_isInf {a b : F64} (ha : isInf a = true) (hb : isNaN b = false) :
    fmul a b = if isZero b then canonNaN else fInf (fSign a ^^ fSign b) := by
  simp [fmul, ha, isInf_excludes ha, hb]

/-- Settles O57: finite operands round their exact product once, and the product commutes. -/
theorem multiplicationIsIeee : Obligations.MultiplicationIsIeee := by
  intro a b
  refine ⟨fun ha hb => ⟨fmul_roundsTo ha hb, fSign_fmul ha hb⟩, fmul_of_isNaN, fmul_of_isInf, fun ha hb => ?_⟩
  rw [fmul_comm, fmul_of_isInf hb ha, Bool.xor_comm]; rfl

/-! ## Division -/

theorem isFinite_of_isZero {x : F64} (h : isZero x = true) : isFinite x = true := by
  rw [isZero_iff] at h
  rw [isFinite_iff, h]
  decide

theorem fdiv_of_isNaN {a b : F64} (h : isNaN a = true ∨ isNaN b = true) : fdiv a b = canonNaN := by
  rw [fdiv, if_pos (by simpa using h)]

theorem fSign_fdiv {a b : F64} (ha : isFinite a = true) (hb : isFinite b = true) (hb0 : isZero b = false) :
    fSign (fdiv a b) = (fSign a ^^ fSign b) := by
  simp only [fdiv, isFinite_excludes ha, isFinite_excludes hb, hb0, Bool.or_self, Bool.false_eq_true, if_false,
    fSign_round64]

theorem fdiv_of_isInf {a b : F64} (ha : isInf a = true) (hb : isNaN b = false) :
    fdiv a b = if isInf b then canonNaN else fInf (fSign a ^^ fSign b) := by
  simp [fdiv, ha, isInf_excludes ha, hb]

theorem fdiv_of_isFinite_of_isInf {a b : F64} (ha : isFinite a = true) (hb : isInf b = true) :
    fdiv a b = fZero (fSign a ^^ fSign b) := by
  simp [fdiv, hb, isFinite_excludes ha, isInf_excludes hb]

theorem fdiv_of_isFinite_of_isZero {a b : F64} (ha : isFinite a = true) (hb : isZero b = true) :
    fdiv a b = if isZero a then canonNaN else fInf (fSign a ^^ fSign b) := by
  simp [fdiv, hb, isFinite_excludes ha, isFinite_excludes (isFinite_of_isZero hb)]

/-- Settles O58, class by class: finite operands with a divisor that is not zero round their exact quotient once. -/
theorem divisionIsIeee : Obligations.DivisionIsIeee := by
  intro a b
  refine ⟨fun ha hb hb0 => ⟨fdiv_roundsTo ha hb hb0, fSign_fdiv ha hb hb0⟩, fdiv_of_isNaN, fun ha hb => ?_,
    fun ha hb => ?_, fdiv_of_isFinite_of_isInf, fdiv_of_isFinite_of_isZero⟩
  · obtain ⟨hnan, -, -⟩ := isInf_excludes hb
    rw [fdiv_of_isInf ha hnan, if_pos hb]; rfl
  · obtain ⟨hnan, hinf⟩ := isFinite_excludes hb
    rw [fdiv_of_isInf ha hnan, hinf]; rfl

/-! ## Conversion of an integer -/

/-- Settles O59: an integer below 2^64 is far below the overflow bound. -/
theorem integerConversionIsRounded : Obligations.IntegerConversionIsRounded := by
  intro n hn
  have hround := toF64_roundsTo n
  have hsmall : |(n : ℚ)| < overflowBound := by
    refine lt_overflowBound (k := 64) (by norm_num) ?_
    rw [Nat.abs_cast]
    exact_mod_cast hn.le
  exact ⟨hround, fSign_round64 .., hround.finite hsmall⟩

end Sys2Proof.Machine
end

section
/-! PROOFS. 43_precision: a longer code is finer, and what the metric formulas give beside a NaN or an infinity. -/

namespace Sys2Proof.Machine

open Sys2Proof.Spec

/-! ## A longer code (R167) -/

theorem latbits_strictMono : StrictMono latbits :=
  strictMono_nat_of_lt_succ fun j => by rw [latbits_succ]; unfold latw; split_ifs <;> omega

theorem lonbits_strictMono : StrictMono lonbits :=
  strictMono_nat_of_lt_succ fun j => by rw [lonbits_succ]; unfold lonw latw; split_ifs <;> omega

theorem div_two_pow_lt {c : ℚ} (hc : 0 < c) {a b : Nat} (h : a < b) : c / 2 ^ b < c / 2 ^ a :=
  div_lt_div_of_pos_left hc (by positivity) (pow_lt_pow_right₀ one_lt_two h)

/-- Settles O43: the half-extents are exact, and a longer code resolves more bits on both axes. -/
theorem precisionStrictlyImproves : Obligations.PrecisionStrictlyImproves := by
  intro s l l' hlt hl'
  have hl : l ≤ 18 := by omega
  refine ⟨_, _, exec_half_ok hl s, exec_half_ok hl' s, ?_, ?_⟩
  · rw [complete_hlatDeg, complete_hlatDeg, (hdegLat_exact hl).2, (hdegLat_exact hl').2]
    exact div_two_pow_lt (by norm_num) (latbits_strictMono hlt)
  · rw [complete_hlonDeg, complete_hlonDeg, (hdegLon_exact hl).2, (hdegLon_exact hl').2]
    exact div_two_pow_lt (by norm_num) (lonbits_strictMono hlt)

/-! ## A latitude that is not finite (R166) -/

theorem isFinite_canonNaN : isFinite canonNaN = false := by decide

theorem isNaN_canonNaN : isNaN canonNaN = true := by decide

theorem isFinite_fInf (b : Bool) : isFinite (fInf b) = false := by cases b <;> decide

/-- A factor that is not finite leaves no finite product. -/
theorem isFinite_fmul_eq_false {a b : F64} (h : isFinite a = false) : isFinite (fmul a b) = false := by
  by_cases hnan : isNaN a = true ∨ isNaN b = true
  · rw [fmul_of_isNaN hnan, isFinite_canonNaN]
  · simp only [not_or, Bool.not_eq_true] at hnan
    have hinf : isInf a = true := by
      rcases class_cases a with hf | hi | hn
      · rw [h] at hf; cases hf
      · exact hi
      · rw [hnan.1] at hn; cases hn
    rw [fmul_of_isInf hinf hnan.2]
    split_ifs
    · exact isFinite_canonNaN
    · exact isFinite_fInf _

theorem cos64_of_not_isFinite {x : F64} (h : isFinite x = false) : cos64 x = canonNaN := by
  rw [cos64, cosLimit, h, if_neg Bool.false_ne_true]

theorem fmul_canonNaN (a : F64) : fmul a canonNaN = canonNaN := fmul_of_isNaN (.inr isNaN_canonNaN)

theorem hypot64_canonNaN : hypot64 canonNaN canonNaN = canonNaN := by
  have hinf : isInf canonNaN = false := by decide
  rw [hypot64, hypotLimit, hinf, isNaN_canonNaN]; rfl

theorem mpdLat_of_not_isFinite {lat : F64} (h : isFinite lat = false) : mpdLat cos64 lat = canonNaN := by
  have hcos : ∀ c, cos64 (fmul c (phi lat)) = canonNaN := fun c =>
    cos64_of_not_isFinite (by rw [fmul_comm]; exact isFinite_fmul_eq_false (isFinite_fmul_eq_false h))
  rw [mpdLat, hcos, hcos, fmul_canonNaN, fmul_canonNaN]
  exact fadd_of_isNaN (.inr isNaN_canonNaN)

theorem mpdLon_of_not_isFinite {lat : F64} (h : isFinite lat = false) : mpdLon cos64 lat = canonNaN := by
  rw [mpdLon, cos64_of_not_isFinite (x := phi lat) (isFinite_fmul_eq_false h), fmul_canonNaN]

theorem exec_meters (s : State) :
    exec .meters s = .next (complete (withMetrics cos64 hypot64 s.ctrLat s.hlatDeg s.hlonDeg s)) := rfl

/-- Settles O45: the cosine of what is not finite is the canonical NaN, and every operation after it hands that on. -/
theorem nonFiniteLatitudeGivesNanMetrics : Obligations.NonFiniteLatitudeGivesNanMetrics := by
  intro s h
  have hlat := mpdLat_of_not_isFinite h
  have hlon := mpdLon_of_not_isFinite h
  refine ⟨_, exec_meters s, errOf_statusCompleted _, hlat, hlon, ?_, ?_, ?_⟩
  · rw [complete_hlatM, withMetrics_hlatM, hlat]; exact fmul_canonNaN _
  · rw [complete_hlonM, withMetrics_hlonM, hlon]; exact fmul_canonNaN _
  · rw [complete_errM, withMetrics_errM, hlat, hlon, fmul_canonNaN, fmul_canonNaN]; exact hypot64_canonNaN

/-! ## The limits of HYPOT64 (R166; 00_scope R11) -/

/-- Only a zero keeps its sign. -/
theorem isZero_of_fSign_nonNegative {x : F64} (h : fSign (nonNegative x) = true) : isZero (nonNegative x) = true := by
  unfold nonNegative at h ⊢
  split_ifs at h ⊢ with hz
  · exact hz
  · rw [fSign, BitVec.getLsbD_and, show (0x7FFFFFFFFFFFFFFF#64).getLsbD 63 = false by decide, Bool.and_false] at h
    cases h

theorem isNaN_nonNaN (x : F64) : isNaN (nonNaN x) = false := by
  unfold nonNaN
  split_ifs with h
  · have hfrac : fFrac (x &&& 0xFFF0000000000000#64) = 0 := by
      rw [fFrac, BitVec.extractLsb'_and, show (0xFFF0000000000000#64).extractLsb' 0 52 = 0#52 by decide, BitVec.and_zero]
      rfl
    rw [isNaN, hfrac]
    exact Bool.and_false _
  · exact Bool.eq_false_iff.2 h

theorem nonNaN_of_not_isNaN {x : F64} (h : isNaN x = false) : nonNaN x = x := by
  rw [nonNaN, h, if_neg Bool.false_ne_true]

theorem fSign_nonNaN (x : F64) : fSign (nonNaN x) = fSign x := by
  unfold nonNaN
  split_ifs
  · rw [fSign, BitVec.getLsbD_and, show (0xFFF0000000000000#64).getLsbD 63 = true by decide, Bool.and_true, fSign]
  · rfl

theorem canonical_cases (x : F64) : (canonical x = canonNaN) ∨ (isNaN x = false ∧ canonical x = x) := by
  unfold canonical
  split_ifs with h
  · exact .inl rfl
  · exact .inr ⟨Bool.eq_false_iff.2 h, rfl⟩

/-- What the limits let through: the canonical NaN, or a number that is not below zero. -/
theorem hypot64_cases (x y : F64) : hypot64 x y = canonNaN ∨
    (isNaN (hypot64 x y) = false ∧ (fSign (hypot64 x y) = true → isZero (hypot64 x y) = true)) := by
  unfold hypot64 hypotLimit
  generalize Config.hypot64Free x y = f
  split_ifs
  · rcases canonical_cases (nonNegative f) with h | ⟨hnan, h⟩
    · exact .inl h
    · rw [h]
      exact .inr ⟨hnan, isZero_of_fSign_nonNegative⟩
  · exact .inl rfl
  · refine .inr ⟨isNaN_nonNaN _, fun hs => ?_⟩
    rw [fSign_nonNaN] at hs
    have hz := isZero_of_fSign_nonNegative hs
    rwa [nonNaN_of_not_isNaN (isFinite_excludes (isFinite_of_isZero hz)).1]

theorem isNaN_hypot64_of_isFinite {x y : F64} (hx : isFinite x = true) (hy : isFinite y = true) :
    isNaN (hypot64 x y) = false := by
  simp [hypot64, hypotLimit, isFinite_excludes hx, isFinite_excludes hy, isNaN_nonNaN]

/-- Settles O46: METERS puts a HYPOT64 in the error radius, whose limits give the three clauses. -/
theorem errorRadiusIsNotNegative : Obligations.ErrorRadiusIsNotNegative := by
  intro s
  refine ⟨_, exec_meters s, ?_⟩
  rw [complete_errM, withMetrics_errM]
  refine ⟨fun hs => ?_, fun hn => ?_, isNaN_hypot64_of_isFinite⟩
  · rcases hypot64_cases _ _ with h | ⟨-, h⟩
    · rw [h] at hs; exact absurd hs (by decide)
    · exact h hs
  · rcases hypot64_cases _ _ with h | ⟨h, -⟩
    · exact h
    · rw [h] at hn; cases hn

end Sys2Proof.Machine
end

section
/-! PROOFS. 40_normalizer, 41_interleaver, 44_codec: NORM outside the range, the bits below every position, and ENCODE and
DECODE one after the other. -/

namespace Sys2Proof.Machine

open Sys2Proof.Spec

/-! ## Clamping (40_normalizer R101) -/

theorem normLat_antitone {x y : F64} (hx : isNaN x = false) (hy : isNaN y = false) (h : LeF x y) :
    (normLat y).toNat ≤ (normLat x).toNat :=
  latFixed_antitone (latFixed_normLat hx) (latFixed_normLat hy) h

theorem normLon_monotone {x y : F64} (hx : isNaN x = false) (hy : isNaN y = false) (h : LeF x y) :
    (normLon x).toNat ≤ (normLon y).toNat :=
  lonFixed_monotone (lonFixed_normLon hx) (lonFixed_normLon hy) h

theorem normLat_ninety : (normLat 0x4056800000000000#64).toNat = 0 := by decide +kernel

theorem normLat_neg_ninety : (normLat 0xC056800000000000#64).toNat = 2 ^ 56 - 1 := by decide +kernel

theorem normLon_neg_one_eighty : (normLon 0xC066800000000000#64).toNat = 0 := by decide +kernel

theorem normLon_one_eighty : (normLon 0x4066800000000000#64).toNat = 2 ^ 56 - 1 := by decide +kernel

/-- Settles O26: NORM keeps or reverses order, and gives the ends 0 and 2^56 − 1 at the bounds already. -/
theorem outOfRangeDegreesAreClamped : Obligations.OutOfRangeDegreesAreClamped := by
  intro s hlat hlon
  refine ⟨_, exec_norm_ok (badCoordinate_of_not_isNaN hlat hlon), errOf_statusCompleted _, fun h => ?_, fun h => ?_,
    fun h => ?_, fun h => ?_⟩ <;> simp only [complete_qlat, complete_qlon]
  · exact Nat.le_zero.1 ((normLat_antitone (by decide) hlat h).trans_eq normLat_ninety)
  · exact le_antisymm (Nat.le_sub_one_of_lt (normLat s.latIn).isLt)
      (normLat_neg_ninety.ge.trans (normLat_antitone hlat (by decide) h))
  · exact Nat.le_zero.1 ((normLon_monotone hlon (by decide) h).trans_eq normLon_neg_one_eighty)
  · exact le_antisymm (Nat.le_sub_one_of_lt (normLon s.lonIn).isLt)
      (normLon_one_eighty.ge.trans (normLon_monotone (by decide) hlon h))

/-! ## The bits below every position (41_interleaver R122) -/

theorem eleven_le_shLat {j : Nat} (h : j ≤ 17) : 11 ≤ shLat j := by
  rw [shLat_eq_latShift]; unfold latShift; split_ifs <;> omega

theorem eleven_le_shLon {j : Nat} (h : j ≤ 17) : 11 ≤ shLon j := by
  rw [shLon_eq_lonShift]; unfold lonShift; split_ifs <;> omega

/-- A shift by at least 11 sees only what a shift by 11 leaves. -/
theorem ushiftRight_eq_of_le {q q' : Fixed} (h : q >>> 11 = q' >>> 11) {n : Nat} (hn : 11 ≤ n) : q >>> n = q' >>> n := by
  obtain ⟨k, rfl⟩ := Nat.exists_eq_add_of_le hn
  rw [BitVec.shiftRight_add, BitVec.shiftRight_add, h]

/-- Settles O34: both fields of a position are shifted down by at least 11 bits. -/
theorem lowBitsAreNeverRead : Obligations.LowBitsAreNeverRead := by
  intro s s' j hj hlat hlon
  refine ⟨_, _, exec_ilv_ok (by omega) s, exec_ilv_ok (by omega) s', ?_⟩
  have hf : fLat j s.qlat = fLat j s'.qlat := by
    rw [fLat, fLat, ushiftRight_eq_of_le hlat (eleven_le_shLat hj)]
  have hg : fLon j s.qlon = fLon j s'.qlon := by
    rw [fLon, fLon, ushiftRight_eq_of_le hlon (eleven_le_shLon hj)]
  rw [complete_sym, complete_sym, symbolAt, symbolAt, hf, hg]

/-! ## The code of a length (44_codec R182) -/

/-- After an ENCODE of length l the slots below l hold the code of the normalized coordinate. -/
theorem slot_withCode {l j : Nat} (hl : l ≤ 18) (hj : j < l) (q r : Fixed) (s : State) :
    slot (withCode l q r s).code j = codeChar q r j := by
  rw [withCode_code, slot_fillSlots, if_pos ⟨hj, by omega⟩]

/-- Settles O49: the character of a position does not depend on the length. -/
theorem shorterCodesAreInitialParts : Obligations.ShorterCodesAreInitialParts := by
  intro s l hl hlat hlon
  have hgood := badCoordinate_of_not_isNaN hlat hlon
  refine ⟨_, _, exec_encode_ok hl hgood, exec_encode_ok le_rfl hgood, fun j hj => ?_⟩
  rw [complete_code, complete_code, slot_withCode hl hj, slot_withCode le_rfl (by omega)]

/-! ## DECODE reads the slots below the length (44_codec R184) -/

section agree

variable {c c' : CodeBuffer} {l : Nat} (h : ∀ j < l, slot c' j = slot c j)
include h

theorem firstInvalid_congr : firstInvalid c' l = firstInvalid c l := by
  cases hf : firstInvalid c l with
  | none =>
    rw [firstInvalid_eq_none_iff] at hf ⊢
    exact fun j hj => h j hj ▸ hf j hj
  | some j =>
    have hj := firstInvalid_lt hf
    obtain ⟨hbad, hgood⟩ := firstInvalid_spec hf
    refine firstInvalid_eq_some hj (h j hj ▸ (indexOfChar_eq_none_iff _).1 hbad) fun k hk => ?_
    rw [h k (by omega)]
    exact not_not.1 (mt (indexOfChar_eq_none_iff _).2 (hgood k hk))

theorem cornerLat_congr : cornerLat c' l = cornerLat c l := by
  induction l with
  | zero => rfl
  | succ j ih => rw [cornerLat, cornerLat, ih fun i hi => h i (by omega), codeSymbol, codeSymbol, h j (by omega)]

theorem cornerLon_congr : cornerLon c' l = cornerLon c l := by
  induction l with
  | zero => rfl
  | succ j ih => rw [cornerLon, cornerLon, ih fun i hi => h i (by omega), codeSymbol, codeSymbol, h j (by omega)]

end agree

/-- Settles O53: the first invalid position and the corner are the same, and no other part of DECODE reads a slot. -/
theorem decodeIgnoresSlotsBeyondTheLength : Obligations.DecodeIgnoresSlotsBeyondTheLength := by
  intro s t code' hagree h
  have hfirst : firstInvalid code' s.codeLen.toNat = firstInvalid s.code s.codeLen.toNat := firstInvalid_congr hagree
  by_cases hl : s.codeLen.toNat ≤ 18
  · cases hf : firstInvalid s.code s.codeLen.toNat with
    | none =>
      rw [exec_decode_ok hl hf] at h
      cases h
      rw [exec_decode_ok (s := { s with code := code' }) hl (hfirst.trans hf)]
      dsimp only
      rw [cornerLat_congr hagree, cornerLon_congr hagree]
      rfl
    | some j =>
      rw [exec_decode_invalid hl hf] at h
      cases h
      rw [exec_decode_invalid (s := { s with code := code' }) hl (hfirst.trans hf)]
      rfl
  · rw [exec_decode_err hl] at h
    cases h
    rw [exec_decode_err (s := { s with code := code' }) hl]
    rfl

/-! ## ENCODE then DECODE (44_codec R186) -/

section roundTrip

variable {c : CodeBuffer} {q r : Fixed} {l : Nat} (hl : l ≤ 18) (hc : ∀ j < l, slot c j = codeChar q r j)
include hc

theorem firstInvalid_of_code : firstInvalid c l = none :=
  firstInvalid_eq_none_iff.2 fun j hj => hc j hj ▸ inAlphabet_rom _

theorem codeSymbol_of_code {j : Nat} (hj : j < l) : codeSymbol c j = symbolAt j q r := by
  rw [codeSymbol, hc j hj, codeChar, indexOfChar_rom, Option.getD_some]

include hl

/-- The corner of the code of (q, r) is its top bits. -/
theorem cornerLat_of_code : cornerLat c l = topBits (latbits l) q := by
  induction l with
  | zero => exact (topBits_zero q).symm
  | succ j ih =>
    rw [cornerLat, ih (by omega) fun i hi => hc i (by omega), codeSymbol_of_code hc (by omega),
      orLat_symbolAt_topBits (by omega)]

theorem cornerLon_of_code : cornerLon c l = topBits (lonbits l) r := by
  induction l with
  | zero => exact (topBits_zero r).symm
  | succ j ih =>
    rw [cornerLon, ih (by omega) fun i hi => hc i (by omega), codeSymbol_of_code hc (by omega),
      orLon_symbolAt_topBits (by omega)]

end roundTrip

/-- The center of the cell of length l that holds q. -/
def latCenter (l : Nat) (q : Fixed) : Fixed := topBits (latbits l) q + BitVec.ofNat 56 (2 ^ (55 - latbits l))

/-- The center of the cell of length l that holds r. -/
def lonCenter (l : Nat) (r : Fixed) : Fixed := topBits (lonbits l) r + BitVec.ofNat 56 (2 ^ (55 - lonbits l))

/-- ENCODE then DECODE estimates the center of the cell of what ENCODE wrote. -/
theorem exec_decode_of_code {l : Nat} (hl : l ≤ 18) (q r : Fixed) (s : State) :
    exec .decode (complete (withCode l q r s)) =
      .next (complete (withEstimate (latCenter l q) (lonCenter l r) l (complete (withCode l q r s)))) := by
  have hlen : (complete (withCode l q r s)).codeLen.toNat = l := by
    rw [complete_codeLen, withCode_codeLen, BitVec.toNat_ofNat, Nat.mod_eq_of_lt (by omega)]
  have hc : ∀ j < l, slot (complete (withCode l q r s)).code j = codeChar q r j := fun j hj => slot_withCode hl hj q r s
  rw [exec_decode_ok (hlen.trans_le hl) (hlen.symm ▸ firstInvalid_of_code hc), hlen, cornerLat_of_code hl hc,
    cornerLon_of_code hl hc, hqLat_eq, hqLon_eq]
  rfl

/-- Settles O54: DECODE finds the symbols ENCODE wrote, whose fields are the top bits of its coordinate. -/
theorem encodeDecodeRoundTrip : Obligations.EncodeDecodeRoundTrip := by
  intro s l hl hlat hlon
  exact ⟨_, _, exec_encode_ok hl (badCoordinate_of_not_isNaN hlat hlon), exec_decode_of_code hl _ _ s,
    errOf_statusCompleted _, rfl, rfl, latDegrees_denormLat _, lonDegrees_denormLon _⟩

end Sys2Proof.Machine
end

section
/-! PROOFS. 43_precision R168: the cell of a code contains the coordinate, up to rounding. -/

namespace Sys2Proof.Machine

open Sys2Proof.Spec

/-! ## The center of a cell, in fixed-point units -/

theorem toNat_topBits (b : Nat) (q : Fixed) : (topBits b q).toNat = q.toNat / 2 ^ (56 - b) * 2 ^ (56 - b) := by
  refine Nat.eq_of_testBit_eq fun i => ?_
  rw [BitVec.testBit_toNat, getLsbD_topBits, Nat.testBit_mul_two_pow, Nat.testBit_div_two_pow]
  by_cases hi : 56 - b ≤ i <;> simp [hi, BitVec.testBit_toNat]

/-- A cell is two half-cells. -/
theorem two_pow_cell {b : Nat} (hb : b ≤ 55) : 2 ^ (56 - b) = 2 * 2 ^ (55 - b) := by
  rw [← pow_succ', Nat.succ_sub hb]

/-- The center is the lower corner and half a cell, with no carry out of the top. -/
theorem toNat_center {b : Nat} (hb : b ≤ 55) (q : Fixed) : (topBits b q + BitVec.ofNat 56 (2 ^ (55 - b))).toNat =
    q.toNat / 2 ^ (56 - b) * 2 ^ (56 - b) + 2 ^ (55 - b) := by
  have hcell := two_pow_cell hb
  have hpos : 0 < 2 ^ (55 - b) := by positivity
  have htotal : 2 ^ b * 2 ^ (56 - b) = 2 ^ 56 := by rw [← pow_add, Nat.add_sub_cancel' (by omega)]
  have hlt : q.toNat / 2 ^ (56 - b) < 2 ^ b := Nat.div_lt_of_lt_mul (by rw [mul_comm, htotal]; exact q.isLt)
  have hfit : (q.toNat / 2 ^ (56 - b) + 1) * 2 ^ (56 - b) ≤ 2 ^ 56 := htotal ▸ Nat.mul_le_mul_right _ hlt
  rw [add_mul, one_mul] at hfit
  rw [BitVec.toNat_add, toNat_topBits, BitVec.toNat_ofNat, Nat.add_mod_mod, Nat.mod_eq_of_lt (by omega)]

/-- A cell's center is at most half a cell from every number in the cell. -/
theorem abs_center_sub_le {b : Nat} (hb : b ≤ 55) (q : Fixed) :
    |((topBits b q + BitVec.ofNat 56 (2 ^ (55 - b))).toNat : ℚ) - q.toNat| ≤ 2 ^ (55 - b) := by
  have hcell := two_pow_cell hb
  have hsplit := Nat.div_add_mod' q.toNat (2 ^ (56 - b))
  have hrest := Nat.mod_lt q.toNat (show 0 < 2 ^ (56 - b) by positivity)
  rw [toNat_center hb]
  generalize hm : q.toNat / 2 ^ (56 - b) * 2 ^ (56 - b) + 2 ^ (55 - b) = m
  have hlow : q.toNat ≤ m + 2 ^ (55 - b) := by omega
  have hup : m ≤ q.toNat + 2 ^ (55 - b) := by omega
  rw [abs_sub_le_iff, sub_le_iff_le_add', sub_le_iff_le_add']
  exact ⟨by exact_mod_cast hup, by exact_mod_cast hlow⟩

/-! ## The center in degrees -/

/-- On an axis of extent c = 2h degrees, NORM of y degrees, then the center of the cell of b bits, then DENORM's product is
within the half-extent h/2^b of y, up to the errors of NORM and of the product. -/
theorem axisDegrees_center_near {c h y : ℚ} {C d : F64} (ext : Extent c C) (hc : c = 2 * h) {b : Nat} (hb : b ≤ 55)
    {q : Fixed} (hq : AxisFixed c y q.toNat) (h0 : 0 ≤ y) (h1 : y ≤ c)
    (hd : AxisDegrees c (topBits b q + BitVec.ofNat 56 (2 ^ (55 - b))).toNat d) :
    |fVal d - y| ≤ h / 2 ^ b + (1 / 2 ^ 42 + 1 / 2 ^ 43) := by
  have efix := axisFixed_error_le ext hq h0 h1
  have edeg := axisDegrees_error_le ext (BitVec.isLt _).le hd
  have ecell := abs_center_sub_le hb q
  generalize ((topBits b q + BitVec.ofNat 56 (2 ^ (55 - b))).toNat : ℚ) = m at *
  have hpow : (2 : ℚ) ^ (55 - b) / 2 ^ 56 * c = h / 2 ^ b := by
    have : (2 : ℚ) ^ 56 = 2 * (2 ^ (55 - b) * 2 ^ b) := by rw [← pow_add, Nat.sub_add_cancel hb, ← pow_succ']
    rw [this, hc]; field_simp
  have ecell' : |(m - q.toNat) / 2 ^ 56 * c| ≤ h / 2 ^ b := by
    rw [abs_mul, abs_div, abs_of_pos ext.pos, abs_of_pos (by positivity : (0 : ℚ) < 2 ^ 56), ← hpow]
    exact mul_le_mul_of_nonneg_right (div_le_div_of_nonneg_right ecell (by positivity)) ext.pos.le
  calc |fVal d - y|
      = |(m - q.toNat) / 2 ^ 56 * c + (fVal d - m / 2 ^ 56 * c) + (q.toNat / 2 ^ 56 * c - y)| := by
        congr 1; ring
    _ ≤ h / 2 ^ b + 1 / 2 ^ 42 + 1 / 2 ^ 43 := (abs_add_three _ _ _).trans (add_le_add_three ecell' edeg efix)
    _ = h / 2 ^ b + (1 / 2 ^ 42 + 1 / 2 ^ 43) := add_assoc ..

/-- DENORM's last rounding, of at most 180 degrees, keeps the sum of the roundings below 1e-12. -/
theorem abs_add_last_rounding_le {u v h : ℚ} (hu : |u| ≤ 2 ^ 8 / 2 ^ 53) (hv : |v| ≤ h + (1 / 2 ^ 42 + 1 / 2 ^ 43)) :
    |u + v| ≤ h + 1 / 10 ^ 12 := by
  have := abs_add_le u v
  norm_num at hu hv ⊢
  linarith

theorem latDegrees_latCenter_near {lat x : F64} (hf : isFinite lat = true) (hlat : |fVal lat| ≤ 90) {l : Nat} (hl : l ≤ 18)
    {q : Fixed} (hq : LatFixed lat q.toNat) (hx : LatDegrees (latCenter l q).toNat x) :
    |fVal x - fVal lat| ≤ 90 / 2 ^ latbits l + 1 / 10 ^ 12 := by
  obtain ⟨hlow, hup⟩ := abs_le.1 hlat
  obtain ⟨d, hd, hr, -⟩ := latDegrees_iff.1 hx
  obtain ⟨hd0, hd1⟩ := axisDegrees_mem_Icc extent_c180 (BitVec.isLt _).le hd
  have ed := axisDegrees_center_near extent_c180 (h := 90) (by norm_num) ((latbits_le hl).trans (by norm_num))
    (latFixed_of_isFinite hq hf) (by linarith) (by linarith) hd
  have er := hr.error_le (k := 8) (by norm_num) (by rw [abs_le]; constructor <;> linarith)
  rw [abs_sub_comm] at ed
  calc |fVal x - fVal lat| = |(fVal x - (90 - fVal d)) + (90 - fVal lat - fVal d)| := by congr 1; ring
    _ ≤ 90 / 2 ^ latbits l + 1 / 10 ^ 12 := abs_add_last_rounding_le er ed

theorem lonDegrees_lonCenter_near {lon x : F64} (hf : isFinite lon = true) (hlon : |fVal lon| ≤ 180) {l : Nat} (hl : l ≤ 18)
    {r : Fixed} (hr : LonFixed lon r.toNat) (hx : LonDegrees (lonCenter l r).toNat x) :
    |fVal x - fVal lon| ≤ 180 / 2 ^ lonbits l + 1 / 10 ^ 12 := by
  obtain ⟨hlow, hup⟩ := abs_le.1 hlon
  obtain ⟨d, hd, hround, -⟩ := lonDegrees_iff.1 hx
  obtain ⟨hd0, hd1⟩ := axisDegrees_mem_Icc extent_c360 (BitVec.isLt _).le hd
  have ed := axisDegrees_center_near extent_c360 (h := 180) (by norm_num) ((lonbits_le hl).trans (by norm_num))
    (lonFixed_of_isFinite hr hf) (by linarith) (by linarith) hd
  have er := hround.error_le (k := 8) (by norm_num) (by rw [abs_le]; constructor <;> linarith)
  calc |fVal x - fVal lon| = |(fVal x - (fVal d - 180)) + (fVal d - (fVal lon + 180))| := by congr 1; ring
    _ ≤ 180 / 2 ^ lonbits l + 1 / 10 ^ 12 := abs_add_last_rounding_le er ed

/-- Settles O55: the center is at most half a cell from what ENCODE wrote, which is the half-extent in degrees, and the
roundings on the way add up to less than 1e-12. -/
theorem cellContainsTheCoordinate : Obligations.CellContainsTheCoordinate := by
  intro s l _ hl flat flon hlat hlon
  have nlat := (isFinite_excludes flat).1
  have nlon := (isFinite_excludes flon).1
  refine ⟨_, _, exec_encode_ok hl (badCoordinate_of_not_isNaN nlat nlon), exec_decode_of_code hl _ _ s, ?_, ?_⟩
  · rw [complete_ctrLat, complete_hlatDeg, withEstimate_ctrLat, withEstimate_hlatDeg, (hdegLat_exact hl).2]
    exact latDegrees_latCenter_near flat hlat hl (latFixed_normLat nlat) (latDegrees_denormLat _)
  · rw [complete_ctrLon, complete_hlonDeg, withEstimate_ctrLon, withEstimate_hlonDeg, (hdegLon_exact hl).2]
    exact lonDegrees_lonCenter_near flon hlon hl (lonFixed_normLon nlon) (lonDegrees_denormLon _)

end Sys2Proof.Machine
end
